-- ==== Sys2Proof/Config.lean ====
section
/-! DEFINITION. Config: the fixed parameters of the block (spec/00_scope.md rule R12). The model takes none as an
argument, and the spec leaves no result open, so there is no free value here. -/

namespace Sys2Proof.Config

/-- RATE_BYTES of R12: bytes absorbed per permutation. -/
abbrev rateBytes : Nat := 136

/-- STATE_BYTES of R12. -/
abbrev stateBytes : Nat := 200

/-- LANES of R12. -/
abbrev lanes : Nat := 25

/-- RATE_LANES of R12. -/
abbrev rateLanes : Nat := 17

/-- ROUNDS of R12; with one round a clock also BUSY_CYCLES. -/
abbrev rounds : Nat := 24

/-- DIGEST_BYTES of R12. -/
abbrev digestBytes : Nat := 32

/-- ABSORB_MAX of R12: bytes per ABSORB command. -/
abbrev absorbMax : Nat := 8

/-- PAD_FIRST of R12: the original Keccak padding, not SHA-3's 0x06 (R2). -/
abbrev padFirst : BitVec 8 := 0x01#8

/-- PAD_LAST of R12, put into byte RATE_BYTES - 1. -/
abbrev padLast : BitVec 8 := 0x80#8

end Sys2Proof.Config
end

