-- ==== Sys2Proof/Word.lean ====
section
/-! DEFINITION. Word: the widths of the block's words (spec/00_scope.md R12, spec/30_encoding.md R80). -/

namespace Sys2Proof

/-- A lane of the state (R30), and the `din` and `dout` words (R80). -/
abbrev Lane := BitVec 64

/-- A byte of the state or of a message (R33). -/
abbrev Byte := BitVec 8

/-- The command word on the `cmd` port (R85). -/
abbrev CmdWord := BitVec 32

/-- The state register `A`: 25 lanes in index order (R30, R31). -/
abbrev Lanes := Vector Lane 25

end Sys2Proof
end

