-- ==== Sys2Proof/Syntax.lean ====
section
/-! DEFINITION. Syntax: the commands, one constructor per row of spec/opcode_table.json (spec/30_encoding.md R88). -/

namespace Sys2Proof

/-- A command as the assembler writes it (R97). The operands are raw fields; `Instr.wf` says which are legal. -/
inductive Instr where
  /-- OP 0x0 (R160). -/
  | nop
  /-- OP 0x1 (R161). -/
  | init
  /-- OP 0x2 (R162): the byte count field N = cmd[7:4] and the data word `din`. -/
  | absorb (n : BitVec 4) (din : Lane)
  /-- OP 0x3 (R164). -/
  | final
  /-- OP 0x4 (R135). -/
  | permute
  /-- OP 0x5 (R166): the lane field LANE = cmd[12:8]. -/
  | read (lane : BitVec 5)
  deriving DecidableEq, Repr

end Sys2Proof
end

