-- ==== Sys2Proof/WellFormed.lean ====
section
/-! DEFINITION. WellFormed: the range conditions of spec/30_encoding.md R86 and R87 on a command's fields. -/

namespace Sys2Proof

/-- N is 1..8 for ABSORB (R86) and LANE is 0..24 for READ (R87); the other commands have no field. -/
def Instr.wf : Instr → Bool
  | .nop => true
  | .init => true
  | .absorb n _ => decide (1 ≤ n.toNat) && decide (n.toNat ≤ Config.absorbMax)
  | .final => true
  | .permute => true
  | .read lane => decide (lane.toNat < Config.lanes)

end Sys2Proof
end

