-- ==== Sys2Proof/Decode.lean ====
section
/-! DEFINITION. Decode: command words to commands and back (spec/30_encoding.md R85 to R92, R97). -/

namespace Sys2Proof

/-- OP = cmd[3:0] (R85). -/
def cmdOp (cmd : CmdWord) : BitVec 4 := cmd.extractLsb' 0 4

/-- N = cmd[7:4] (R85, R86). -/
def cmdN (cmd : CmdWord) : BitVec 4 := cmd.extractLsb' 4 4

/-- LANE = cmd[12:8] (R85, R87). -/
def cmdLane (cmd : CmdWord) : BitVec 5 := cmd.extractLsb' 8 5

/-- RSV = cmd[31:13] (R85). -/
def cmdRsv (cmd : CmdWord) : BitVec 19 := cmd.extractLsb' 13 19

/-- Why a word is no legal command; every one of these is the spec's ILLEGAL (R89, R202). -/
inductive DecodeError where
  /-- OP 0x6..0xF (R90). -/
  | reservedOp
  /-- A field the command does not use, or RSV, is not 0 (R89). -/
  | unusedFieldNonzero
  /-- ABSORB with N = 0 or N > 8 (R86, R89). -/
  | byteCountOutOfRange
  /-- READ with LANE > 24 (R87, R89). -/
  | laneOutOfRange
  deriving DecidableEq, Repr

/-- A command with no field: every bit above OP is 0 (R89). -/
def decodePlain (cmd : CmdWord) (i : Instr) : Except DecodeError Instr :=
  if cmdN cmd = 0 ∧ cmdLane cmd = 0 ∧ cmdRsv cmd = 0 then .ok i else .error .unusedFieldNonzero

/-- ABSORB: LANE and RSV are 0 and N is 1..8 (R89). -/
def decodeAbsorb (cmd : CmdWord) (din : Lane) : Except DecodeError Instr :=
  if cmdLane cmd = 0 ∧ cmdRsv cmd = 0 then
    if (Instr.absorb (cmdN cmd) din).wf then .ok (.absorb (cmdN cmd) din) else .error .byteCountOutOfRange
  else .error .unusedFieldNonzero

/-- READ: N and RSV are 0 and LANE is 0..24 (R89). -/
def decodeRead (cmd : CmdWord) : Except DecodeError Instr :=
  if cmdN cmd = 0 ∧ cmdRsv cmd = 0 then
    if (Instr.read (cmdLane cmd)).wf then .ok (.read (cmdLane cmd)) else .error .laneOutOfRange
  else .error .unusedFieldNonzero

/-- The strict decoder of the opcode map (R88, R89). `din` belongs to every transfer, and only ABSORB reads it (R92). -/
def decode (cmd : CmdWord) (din : Lane) : Except DecodeError Instr :=
  match (cmdOp cmd).toNat with
  | 0 => decodePlain cmd .nop
  | 1 => decodePlain cmd .init
  | 2 => decodeAbsorb cmd din
  | 3 => decodePlain cmd .final
  | 4 => decodePlain cmd .permute
  | 5 => decodeRead cmd
  | _ => .error .reservedOp

/-- The one word format of R85. -/
def cmdWord (op n : BitVec 4) (lane : BitVec 5) : CmdWord := (0#19 ++ lane ++ n ++ op : BitVec 32)

/-- The assembler's command word (R97): the row's OP, N = n, LANE = lane, every other field 0. -/
def encodeCmd : Instr → CmdWord
  | .nop => cmdWord 0 0 0
  | .init => cmdWord 1 0 0
  | .absorb n _ => cmdWord 2 n 0
  | .final => cmdWord 3 0 0
  | .permute => cmdWord 4 0 0
  | .read lane => cmdWord 5 0 lane

/-- The assembler's data word (R97): the given value for ABSORB, 0 for every other command. -/
def encodeDin : Instr → Lane
  | .nop => 0
  | .init => 0
  | .absorb _ din => din
  | .final => 0
  | .permute => 0
  | .read _ => 0

/-- The assembler (R97): the values a host puts on `cmd` and `din` to issue a command. -/
def encode (i : Instr) : CmdWord × Lane := (encodeCmd i, encodeDin i)

/-- The assembler syntax of R97 as text: the mnemonic with its operands, n and lane in decimal, din in hexadecimal. -/
def assemblyLine : Instr → String
  | .nop => "NOP"
  | .init => "INIT"
  | .absorb n din => "ABSORB " ++ toString n.toNat ++ ", 0x" ++ din.toHex
  | .final => "FINAL"
  | .permute => "PERMUTE"
  | .read lane => "READ " ++ toString lane.toNat

/-- `IllegalFormat` (R89), line by line; `decode` is proved to refuse exactly these words by an obligation. -/
def illegalFormat (cmd : CmdWord) : Bool :=
  let op := (cmd.extractLsb' 0 4).toNat
  decide (op ≥ 6)
  || (decide (op = 0 ∨ op = 1 ∨ op = 3 ∨ op = 4) && decide (cmd.extractLsb' 4 28 ≠ 0))
  || (decide (op = 2) && decide (cmd.extractLsb' 8 24 ≠ 0 ∨ (cmd.extractLsb' 4 4).toNat = 0 ∨ (cmd.extractLsb' 4 4).toNat > 8))
  || (decide (op = 5) && decide (cmd.extractLsb' 13 19 ≠ 0 ∨ (cmd.extractLsb' 4 4).toNat ≠ 0 ∨ (cmd.extractLsb' 8 5).toNat > 24))

/-- `cmd` is bits 31..0 of a transfer numbered as the opcode table numbers it (log entry 10). -/
def tableCmd (nbits w : Nat) : CmdWord := BitVec.ofNat 32 (w % 2 ^ nbits)

/-- `din` counts on from bit 32 of a transfer; it is 0 where the table's row has only its 32 bits (log entry 10). -/
def tableDin (nbits w : Nat) : Lane := BitVec.ofNat 64 ((w % 2 ^ nbits) >>> 32)

/-- What the decoder reads from a table row's bits (log entry 10). -/
def decodeTableWord (nbits w : Nat) : Option Instr :=
  match decode (tableCmd nbits w) (tableDin nbits w) with
  | .ok i => some i
  | .error _ => none

end Sys2Proof
end

