-- ==== Sys2Proof/Machine/State.lean ====
section
/-! DEFINITION. State: every register of spec/10_state.md R30 to R40 and the host's side of the port; reset (R46);
the reasons a step can stop. -/

namespace Sys2Proof.Machine

open Sys2Proof

/-- `phase` (R35): the FSM state. The 2-bit value 3 is never entered, so it is no constructor (R44, log entry 3). -/
inductive Phase where
  /-- Value 0: accepting input; commands are accepted. -/
  | absorb
  /-- Value 1: the permutation is running; no command is accepted. -/
  | busy
  /-- Value 2: the final permutation is done; lanes 0..3 hold the digest; commands are accepted. -/
  | squeeze
  deriving DecidableEq, Repr

/-- `next` (R36): the phase the engine enters when the running permutation completes. -/
inductive NextPhase where
  /-- Value 0. -/
  | absorb
  /-- Value 1. -/
  | squeeze
  deriving DecidableEq, Repr

/-- `err` (R39, R201). Codes 4 to 7 are never raised (R205, R206), so they are no constructors (R44, log entry 3). -/
inductive ErrCode where
  /-- Code 0: no error since the last INIT or reset. -/
  | none
  /-- Code 1 (R202): the command word is not a legal encoding. -/
  | illegal
  /-- Code 2 (R203): the command is not legal in the current phase. -/
  | phase
  /-- Code 3 (R204): the ABSORB would write past the end of the rate block. -/
  | overrun
  deriving DecidableEq, Repr

/-- The input ports at one rising edge (R80): any values a host can drive (R84). -/
structure PortIn where
  rst      : Bool
  cmdValid : Bool
  cmd      : CmdWord
  din      : Lane
  deriving DecidableEq, Repr

/-- The ports of a host that sends nothing. -/
def PortIn.idle : PortIn := { rst := false, cmdValid := false, cmd := 0, din := 0 }

/-- What the host does next (R242, log entry 1; DESIGN CHOICE: the host is plain data, a list of moves). -/
inductive HostMove where
  /-- Drive the input ports with these values for one edge: a reset edge, an idle edge, or a command that is changed
  or withdrawn afterwards (R84). -/
  | drive (port : PortIn)
  /-- Present a command and keep `cmd_valid` = 1 until an edge accepts it (R235, R242). -/
  | issue (cmd : CmdWord) (din : Lane)
  /-- WAITDONE (R98): send nothing until `status.DVALID` = 1 (log entry 2). -/
  | waitDone
  deriving DecidableEq, Repr

/-- The ports while a move is under way. -/
def HostMove.port : HostMove → PortIn
  | .drive port => port
  | .issue cmd din => { rst := false, cmdValid := true, cmd := cmd, din := din }
  | .waitDone => .idle

/-- The block's registers and the host's moves still to come. The block has no other state (R45). -/
structure State where
  /-- The lane file (R30). -/
  A      : Lanes
  /-- R35. -/
  phase  : Phase
  /-- R36. -/
  next   : NextPhase
  /-- R37: the index of the next round the engine performs. -/
  round  : Fin 24
  /-- R38: the index of the next rate byte ABSORB writes. -/
  cursor : Fin 136
  /-- R39. -/
  err    : ErrCode
  /-- R40. -/
  dout   : Lane
  /-- The model's own field, no register of the block: what the host does from here on (log entry 1). -/
  script : List HostMove
  deriving DecidableEq, Repr

/-- The input ports at the coming edge; with no move left the host sends nothing (log entry 1; DESIGN CHOICE). -/
def State.port (s : State) : PortIn :=
  match s.script with
  | [] => .idle
  | move :: _ => move.port

/-- The block right after reset (R46): every register at the value the rule gives. The host has nothing to do
(log entry 1; DESIGN CHOICE). -/
def State.reset : State where
  A      := Vector.replicate 25 0
  phase  := .absorb
  next   := .absorb
  round  := 0
  cursor := 0
  err    := .none
  dout   := 0
  script := []

/-- The block never traps or halts (R200), so no step faults and this type has no constructor. Safe: there is nothing
to raise. -/
inductive Fault where
  deriving DecidableEq, Repr

/-- Why a step gives a state no meaning. -/
inductive Refusal where
  /-- Only in the dispatcher's arm of a command that has no meaning yet; no arm uses it. Safe: nothing is claimed of a
  refused step. -/
  | notModelled (mnemonic : String)
  /-- Raised by `clockEdge` outside reset where `round` is not 0 outside BUSY: R44 and entry U2 say such a state is
  unreachable and must be refused, never given a meaning (log entry 4). Safe: no step from it is claimed. -/
  | unreachableState
  deriving DecidableEq, Repr

end Sys2Proof.Machine
end

