-- ==== Sys2Proof/Machine/Ops.lean ====
section
/-! DEFINITION. Ops: lane arithmetic, the state's bytes, and the shared operations on registers: recording an error
(what this block has in place of taking an exception), clearing the registers, starting the engine, accepting a command. -/

namespace Sys2Proof.Machine

open Sys2Proof

/-- `ROTL64(v, n)` for 0 ≤ n ≤ 63 (R15). -/
def rotl64 (v : Lane) (n : Nat) : Lane :=
  if n = 0 then v else (v <<< n) ||| (v >>> (64 - n))

/-- Lane index i = x + 5y (R31). -/
def laneIndex (x y : Fin 5) : Fin 25 := ⟨x.val + 5 * y.val, by omega⟩

/-- x = i mod 5 (R31). -/
def laneX (i : Fin 25) : Fin 5 := ⟨i.val % 5, by omega⟩

/-- y = i div 5 (R31). -/
def laneY (i : Fin 25) : Fin 5 := ⟨i.val / 5, by omega⟩

/-- `A[x,y]` (R16, R31). -/
def laneAt (S : Lanes) (x y : Fin 5) : Lane := S[laneIndex x y]

/-- The 25-lane array whose lane (x, y) is `f x y`, in index order (R31). -/
def tabulate (f : Fin 5 → Fin 5 → Lane) : Lanes := #v[
  f 0 0, f 1 0, f 2 0, f 3 0, f 4 0,
  f 0 1, f 1 1, f 2 1, f 3 1, f 4 1,
  f 0 2, f 1 2, f 2 2, f 3 2, f 4 2,
  f 0 3, f 1 3, f 2 3, f 3 3, f 4 3,
  f 0 4, f 1 4, f 2 4, f 3 4, f 4 4]

/-- The lane that holds state byte k: k div 8 (R33). -/
def byteLane (k : Fin 200) : Fin 25 := ⟨k.val / 8, by omega⟩

/-- The lowest bit of state byte k in its lane: 8(k mod 8) (R33). -/
def byteShift (k : Fin 200) : Nat := 8 * (k.val % 8)

/-- `Sbyte(k)`, 0 ≤ k ≤ 199 (R33): bits 8(k mod 8)+7 down to 8(k mod 8) of lane k div 8. -/
def sbyte (S : Lanes) (k : Fin 200) : Byte := S[byteLane k].extractLsb' (byteShift k) 8

/-- `Sbyte(k) ^= v` (R17, R18): XOR into those 8 bits of lane k div 8. -/
def xorByte (S : Lanes) (k : Fin 200) (v : Byte) : Lanes :=
  S.set (byteLane k).val (S[byteLane k] ^^^ (v.setWidth 64 <<< byteShift k))

/-- `Sbyte(k + j) ^= bytes[j]` for ascending j (R18, R162). ABSORB calls it with every byte inside the rate; a byte
past byte 199 does not exist and is not written. -/
def xorBytes (S : Lanes) (k : Nat) : List Byte → Lanes
  | [] => S
  | b :: bs => xorBytes (if h : k < 200 then xorByte S ⟨k, h⟩ b else S) (k + 1) bs

/-- `raise CmdError(e)` (R207): the first error since INIT or reset is kept, and nothing else changes. -/
def raiseCmdError (e : ErrCode) (s : State) : State :=
  if s.err = .none then { s with err := e } else s

/-- All registers to their reset values (R46): reset (R230) and INIT (R161). The host's moves are no register. -/
def clearRegisters (s : State) : State := { State.reset with script := s.script }

/-- Enter BUSY from round 0, to go on to `next` afterwards (R134, R135, R163, R164). -/
def enterBusy (next : NextPhase) (s : State) : State := { s with phase := .busy, next := next, round := 0 }

/-- The phase `next` names (R36). -/
def NextPhase.toPhase : NextPhase → Phase
  | .absorb => .absorb
  | .squeeze => .squeeze

/-- The commands R203 allows in ABSORB only. -/
def absorbOnly : Instr → Bool
  | .nop => false
  | .init => false
  | .absorb _ _ => true
  | .final => true
  | .permute => true
  | .read _ => false

/-- The ABSORB that would write past byte 135 (R204). -/
def overruns (s : State) : Instr → Bool
  | .nop => false
  | .init => false
  | .absorb n _ => decide (s.cursor.val + n.toNat > Config.rateBytes)
  | .final => false
  | .permute => false
  | .read _ => false

/-- `CheckCmd` (R208) on a decoded command: ILLEGAL, then PHASE, then OVERRUN. -/
def checkInstr (i : Instr) (s : State) : ErrCode :=
  if i.wf = false then .illegal
  else if absorbOnly i = true ∧ s.phase ≠ .absorb then .phase
  else if overruns s i = true then .overrun
  else .none

/-- What presenting a command does to the registers: in BUSY it is held, with no effect (R83, R203, entry U10; log
entry 5); else its whole effect, or, where `CheckCmd` fails, only the recorded error (R99, R209). -/
def accept (i : Instr) (s : State) (effect : State) : Host.Outcome State Fault Refusal :=
  if s.phase = .busy then .next s
  else if checkInstr i s = .none then .next effect
  else .next (raiseCmdError (checkInstr i s) s)

end Sys2Proof.Machine
end

