-- ==== Sys2Proof/Machine/Permutation.lean ====
section
/-! DEFINITION. Permutation: the tables and step mappings of Keccak-f[1600], the engine's step and PERMUTE
(spec/40_permutation.md R120 to R135). -/

namespace Sys2Proof.Machine

open Sys2Proof

/-- `ROT` by lane index i = x + 5y (R125). -/
def rotTable : Vector Nat 25 := #v[
   0,  1, 62, 28, 27,
  36, 44,  6, 55, 20,
   3, 10, 43, 25, 39,
  41, 45, 15, 21,  8,
  18,  2, 61, 56, 14]

/-- `ROT[x][y]` (R125). -/
def rotOffset (x y : Fin 5) : Nat := rotTable[laneIndex x y]

/-- The rows of R129's table: the row of r holds `RC[r]` and `RC[r + 12]`, for r in 0..11. -/
def roundConstantRows : Vector (Lane × Lane) 12 := #v[
  (0x0000000000000001, 0x000000008000808B),
  (0x0000000000008082, 0x800000000000008B),
  (0x800000000000808A, 0x8000000000008089),
  (0x8000000080008000, 0x8000000000008003),
  (0x000000000000808B, 0x8000000000008002),
  (0x0000000080000001, 0x8000000000000080),
  (0x8000000080008081, 0x000000000000800A),
  (0x8000000000008009, 0x800000008000000A),
  (0x000000000000008A, 0x8000000080008081),
  (0x0000000000000088, 0x8000000000008080),
  (0x0000000080008009, 0x0000000080000001),
  (0x000000008000000A, 0x8000000080008008)]

/-- `RC[r]`, 0 ≤ r ≤ 23 (R129). -/
def roundConstant (r : Fin 24) : Lane :=
  if h : r.val < 12 then roundConstantRows[r.val].1 else roundConstantRows[r.val - 12].2

/-- The θ column parity C[x] (R122). -/
def columnParity (S : Lanes) (x : Fin 5) : Lane :=
  laneAt S x 0 ^^^ laneAt S x 1 ^^^ laneAt S x 2 ^^^ laneAt S x 3 ^^^ laneAt S x 4

/-- The θ effect lane D[x] (R123; spec/90_conflicts.md C2: with the one-bit rotation). -/
def thetaEffect (S : Lanes) (x : Fin 5) : Lane :=
  columnParity S (x - 1) ^^^ rotl64 (columnParity S (x + 1)) 1

/-- θ (R124). -/
def theta (S : Lanes) : Lanes := tabulate fun x y => laneAt S x y ^^^ thetaEffect S x

/-- ρ (R126). -/
def rho (S : Lanes) : Lanes := tabulate fun x y => rotl64 (laneAt S x y) (rotOffset x y)

/-- π (R127). -/
def pi (S : Lanes) : Lanes := tabulate fun x y => laneAt S (x + 3 * y) x

/-- χ (R128). -/
def chi (S : Lanes) : Lanes :=
  tabulate fun x y => laneAt S x y ^^^ (~~~(laneAt S (x + 1) y) &&& laneAt S (x + 2) y)

/-- ι (R130). -/
def iota (S : Lanes) (r : Fin 24) : Lanes :=
  tabulate fun x y => if x = 0 ∧ y = 0 then laneAt S x y ^^^ roundConstant r else laneAt S x y

/-- `Round(S, r)` (R121). -/
def keccakRound (S : Lanes) (r : Fin 24) : Lanes := iota (chi (pi (rho (theta S)))) r

/-- Rounds r, r+1, .. for as many round indices as the list holds (R120). -/
def keccakRounds (S : Lanes) : List (Fin 24) → Lanes
  | [] => S
  | r :: rs => keccakRounds (keccakRound S r) rs

/-- `Keccak_f(S)` (R120): rounds 0, 1, .., 23 in ascending order. -/
def keccakF (S : Lanes) : Lanes := keccakRounds S (List.finRange 24)

/-- `EngineRound()` (R133). -/
def engineRound (s : State) : State :=
  if s.round = 23 then { s with A := keccakRound s.A s.round, phase := s.next.toPhase, round := 0 }
  else { s with A := keccakRound s.A s.round, round := s.round + 1 }

/-- PERMUTE (R135). -/
def execPermute (s : State) : Host.Outcome State Fault Refusal := accept .permute s (enterBusy .absorb s)

end Sys2Proof.Machine
end

