-- ==== Sys2Proof/Machine/Operands.lean ====
section
/-! DEFINITION. Operands: the bytes of the data word (spec/20_memory.md R63) and the lane selector of READ (R87). -/

namespace Sys2Proof.Machine

open Sys2Proof

/-- Message byte j of a data word: din[8j+7 : 8j], the earliest byte lowest (R63). -/
def dinByte (din : Lane) (j : Nat) : Byte := din.extractLsb' (8 * j) 8

/-- The N bytes an ABSORB takes from din, earliest first; the bits above 8N-1 are ignored (R63). -/
def dinBytes (n : Nat) (din : Lane) : List Byte := (List.range n).map (dinByte din)

/-- The lane READ selects (R166). Only a LANE of 0..24 gets here (R89, R99); any other selects nothing. -/
def selectLane (S : Lanes) (lane : BitVec 5) : Lane :=
  if h : lane.toNat < 25 then S[lane.toNat] else 0

end Sys2Proof.Machine
end

