-- ==== Sys2Proof/Machine/Sponge.lean ====
section
/-! DEFINITION. Sponge: NOP, INIT, ABSORB, FINAL and READ (spec/41_sponge.md R160 to R167). -/

namespace Sys2Proof.Machine

open Sys2Proof

/-- NOP (R160). -/
def execNop (s : State) : Host.Outcome State Fault Refusal := accept .nop s s

/-- INIT (R161). -/
def execInit (s : State) : Host.Outcome State Fault Refusal := accept .init s (clearRegisters s)

/-- The state bytes after an ABSORB (R162). -/
def absorbLanes (n : BitVec 4) (din : Lane) (s : State) : Lanes :=
  xorBytes s.A s.cursor.val (dinBytes n.toNat din)

/-- ABSORB's effect (R162): the cursor advances, or, where the block is full, returns to 0 and the engine starts
(R163). `CheckCmd` has excluded a cursor + N above 136. -/
def absorbEffect (n : BitVec 4) (din : Lane) (s : State) : State :=
  if h : s.cursor.val + n.toNat < 136 then
    { s with A := absorbLanes n din s, cursor := ⟨s.cursor.val + n.toNat, h⟩ }
  else enterBusy .absorb { s with A := absorbLanes n din s, cursor := 0 }

/-- ABSORB (R162). -/
def execAbsorb (n : BitVec 4) (din : Lane) (s : State) : Host.Outcome State Fault Refusal :=
  accept (.absorb n din) s (absorbEffect n din s)

/-- The padding injector (R164): 0x01 into the byte at the cursor, then 0x80 into byte 135 (R165 (a): both into byte
135 where the cursor stands there). -/
def padLanes (s : State) : Lanes :=
  xorByte (xorByte s.A (s.cursor.castLE (by decide)) Config.padFirst) 135 Config.padLast

/-- FINAL (R164). -/
def execFinal (s : State) : Host.Outcome State Fault Refusal :=
  accept .final s (enterBusy .squeeze { s with A := padLanes s, cursor := 0 })

/-- READ (R166). -/
def execRead (lane : BitVec 5) (s : State) : Host.Outcome State Fault Refusal :=
  accept (.read lane) s { s with dout := selectLane s.A lane }

end Sys2Proof.Machine
end

