-- ==== Sys2Proof/Machine/Dispatch.lean ====
section
/-! DEFINITION. Dispatch: one arm per command (spec/30_encoding.md R99). -/

namespace Sys2Proof.Machine

open Sys2Proof

def exec (i : Instr) (s : State) : Host.Outcome State Fault Refusal :=
  match i with
  | .nop => Sys2Proof.Machine.execNop s
  | .init => Sys2Proof.Machine.execInit s
  | .absorb n din => Sys2Proof.Machine.execAbsorb n din s
  | .final => Sys2Proof.Machine.execFinal s
  | .permute => Sys2Proof.Machine.execPermute s
  | .read lane => Sys2Proof.Machine.execRead lane s

end Sys2Proof.Machine
end

