-- ==== Sys2Proof/Machine/Flags.lean ====
section
/-! DEFINITION. Flags: the output ports and the status word (spec/30_encoding.md R83, R93 to R96), functions of the
registers and of `rst` that hold no state (R43), and the legal states of spec/10_state.md R44. -/

namespace Sys2Proof.Machine

open Sys2Proof

/-- The 2-bit value of `phase` (R35). -/
def Phase.code : Phase → BitVec 2
  | .absorb => 0
  | .busy => 1
  | .squeeze => 2

/-- The 1-bit value of `next` (R36). -/
def NextPhase.code : NextPhase → BitVec 1
  | .absorb => 0
  | .squeeze => 1

/-- The 3-bit value of `err` (R201). -/
def ErrCode.code : ErrCode → BitVec 3
  | .none => 0
  | .illegal => 1
  | .phase => 2
  | .overrun => 3

/-- `cmd_ready` (R83). -/
def State.cmdReady (s : State) : Bool := !s.port.rst && !decide (s.phase = .busy)

/-- `digest_valid`, which is also DVALID (R93, R95). -/
def State.digestValid (s : State) : Bool := decide (s.phase = .squeeze)

/-- The `digest` port: lanes 0..3 at all times (R95). It is a digest only while `digestValid` (log entry 8). -/
def State.digest (s : State) : BitVec 256 := s.A[3] ++ s.A[2] ++ s.A[1] ++ s.A[0]

/-- The `status` word (R93): 0, ROUND, CURSOR, 0, ERR, DVALID, READY, PHASE from bit 31 down. -/
def State.status (s : State) : BitVec 32 :=
  0#11 ++ BitVec.ofNat 5 s.round.val ++ BitVec.ofNat 8 s.cursor.val ++ 0#1 ++ s.err.code
    ++ BitVec.ofBool s.digestValid ++ BitVec.ofBool s.cmdReady ++ s.phase.code

/-- A command is accepted at the coming edge (R82): `cmd_valid` = 1 and `cmd_ready` = 1. -/
def State.accepts (s : State) : Bool := s.port.cmdValid && s.cmdReady

/-- What R44 leaves to check once every register has its legal range: `round` is 0 outside BUSY. -/
def State.legal (s : State) : Bool := decide (s.phase = .busy) || decide (s.round = 0)

end Sys2Proof.Machine
end

