-- ==== Sys2Proof/Machine/Edge.lean ====
section
/-! DEFINITION. Edge: the accepted command (spec/30_encoding.md R99) and one rising clock edge (R82), with the host's
next move after it. -/

namespace Sys2Proof.Machine

open Sys2Proof

/-- `Execute(cmd, din)` (R99): a word that is no legal encoding records ILLEGAL (R202); any other is carried out. -/
def execute (cmd : CmdWord) (din : Lane) (s : State) : Host.Outcome State Fault Refusal :=
  match decode cmd din with
  | .ok i => exec i s
  | .error _ => .next (raiseCmdError .illegal s)

/-- `CheckCmd(cmd)` (R208), line by line on the raw word. `execute` decodes first and checks in `accept`; an obligation says
that the two agree. -/
def checkCmd (cmd : CmdWord) (s : State) : ErrCode :=
  let op := (cmd.extractLsb' 0 4).toNat
  if illegalFormat cmd = true then .illegal
  else if (op = 2 ∨ op = 3 ∨ op = 4) ∧ s.phase ≠ .absorb then .phase
  else if op = 2 ∧ s.cursor.val + (cmd.extractLsb' 4 4).toNat > 136 then .overrun
  else .none

/-- The host after an edge (log entries 1, 2): a driven edge is over, an issued command is over once accepted (R84,
R235), and WAITDONE is over once `digest_valid` = 1 (R98). `accepted` says whether this edge accepted the command. -/
def advanceHost (accepted : Bool) (s : State) : State :=
  match s.script with
  | [] => s
  | .drive _ :: rest => { s with script := rest }
  | .issue _ _ :: rest => if accepted then { s with script := rest } else s
  | .waitDone :: rest => if s.digestValid then { s with script := rest } else s

/-- Applies `f` to a next state and keeps a stop. -/
def mapNext (f : State → State) : Host.Outcome State Fault Refusal → Host.Outcome State Fault Refusal
  | .next s => .next (f s)
  | .fault r => .fault r
  | .refused r => .refused r

/-- One rising edge of `clk` (R82), tested in the rule's order: reset, an engine round, an accepted command, nothing.
Outside reset a state that R44 excludes is refused (log entry 4). -/
def clockEdge (s : State) : Host.Outcome State Fault Refusal :=
  if s.port.rst then .next (advanceHost false (clearRegisters s))
  else if s.legal = false then .refused .unreachableState
  else if s.phase = .busy then .next (advanceHost false (engineRound s))
  else if s.port.cmdValid then mapNext (advanceHost true) (execute s.port.cmd s.port.din s)
  else .next (advanceHost false s)

/-- The host's next move is to issue this command (log entry 10). -/
def presentCommand (cmd : CmdWord) (din : Lane) (s : State) : State :=
  { s with script := .issue cmd din :: s.script }

end Sys2Proof.Machine
end

