-- ==== Sys2Proof/Machine/Step.lean ====
section
/-! DEFINITION. Step: one step of the machine is one rising clock edge (spec/30_encoding.md R82). -/

namespace Sys2Proof.Machine

open Sys2Proof

/-- One rising edge of `clk`. -/
def step (s : State) : Host.Outcome State Fault Refusal := clockEdge s

/-- s with a table row's word presented at the port by the host's next move (log entry 10). -/
def State.withFetchWord (s : State) (nbits w : Nat) : State :=
  presentCommand (tableCmd nbits w) (tableDin nbits w) s

end Sys2Proof.Machine
end

