-- ==== Sys2Proof/Machine/Keccak.lean ====
section
/-! DEFINITION. Keccak: the reference function Keccak-256 that the commands implement (spec/41_sponge.md R168), and the
state a part of a message leaves behind (R169, R171). -/

namespace Sys2Proof.Machine

open Sys2Proof

/-- `LE64(b0..b7)` = Σ b_j 2^(8j) (R168), for up to 8 bytes. -/
def le64 : List Byte → Lane
  | [] => 0
  | b :: bs => b.setWidth 64 ||| (le64 bs <<< 8)

/-- `LE(v)` (R168): the 8 bytes of v, least significant first. -/
def leBytes (v : Lane) : List Byte := (List.range 8).map fun j => v.extractLsb' (8 * j) 8

/-- The number of zero bytes that bring `|m| + 1` up to a multiple of 136 (R168). -/
def zeroPadCount (len : Nat) : Nat := (136 - (len + 1) % 136) % 136

/-- `P[|P|-1] | 0x80` (R168). -/
def orLastByte (v : Byte) : List Byte → List Byte
  | [] => []
  | [b] => [b ||| v]
  | b :: c :: bs => b :: orLastByte v (c :: bs)

/-- The padded message P (R168): 0x01, then zero bytes, then 0x80 into the last byte. -/
def padMessage (m : List Byte) : List Byte :=
  orLastByte Config.padLast (m ++ Config.padFirst :: List.replicate (zeroPadCount m.length) 0)

/-- The bytes `P[from .. from + count - 1]`. -/
def slice (P : List Byte) (start count : Nat) : List Byte := (P.drop start).take count

/-- One block XORed into lanes 0..16 (R168), little-endian. -/
def xorBlock (S : Lanes) (block : List Byte) : Lanes :=
  Vector.ofFn fun i : Fin 25 => if i.val < Config.rateLanes then S[i] ^^^ le64 (slice block (8 * i.val) 8) else S[i]

/-- The state before any block (R168). -/
def zeroLanes : Lanes := Vector.replicate 25 0

/-- Blocks 0 .. count-1 of P absorbed, each followed by a permutation (R168). -/
def absorbBlocks (P : List Byte) : Nat → Lanes
  | 0 => zeroLanes
  | b + 1 => keccakF (xorBlock (absorbBlocks P b) (slice P (136 * b) 136))

/-- Lanes 0..3, each least significant byte first (R168). -/
def squeezeBytes (S : Lanes) : List Byte := leBytes S[0] ++ leBytes S[1] ++ leBytes S[2] ++ leBytes S[3]

/-- `Keccak256(m)` (R168). -/
def keccak256 (m : List Byte) : List Byte :=
  squeezeBytes (absorbBlocks (padMessage m) ((padMessage m).length / 136))

/-- The state after the bytes m have been absorbed and nothing padded (R171): every full block absorbed and permuted,
the leftover bytes XORed in. -/
def spongeState (m : List Byte) : Lanes :=
  xorBlock (absorbBlocks m (m.length / 136)) (slice m (136 * (m.length / 136)) 136)

/-- The number of permutations that hashing L bytes takes (R168). -/
def permutationCount (len : Nat) : Nat := len / 136 + 1

end Sys2Proof.Machine
end

