-- ==== Sys2Proof/Machine/HostScript.lean ====
section
/-! DEFINITION. HostScript: the pseudo-commands of spec/30_encoding.md R98 as host moves, the canonical chunking
(spec/41_sponge.md R170) and the edge count of spec/70_reset_and_hazards.md R243. -/

namespace Sys2Proof.Machine

open Sys2Proof

/-- The host issues a command as the assembler writes it (R97). -/
def issueInstr (i : Instr) : HostMove := .issue (encodeCmd i) (encodeDin i)

/-- The number of chunks of the canonical chunking (R170). -/
def chunkCount (len : Nat) : Nat := (len + 7) / 8

/-- Chunk c of the canonical chunking: bytes 8c .. 8c+7, or what is left of them (R170). -/
def chunk (m : List Byte) (c : Nat) : List Byte := slice m (8 * c) 8

/-- The canonical chunking of m (R170). -/
def chunks (m : List Byte) : List (List Byte) := (List.range (chunkCount m.length)).map (chunk m)

/-- The ABSORB of one chunk of 1 to 8 bytes (R170). -/
def absorbOfChunk (bytes : List Byte) : Instr := .absorb (BitVec.ofNat 4 bytes.length) (le64 bytes)

/-- `ABSORBMSG m` (R98). -/
def absorbMessage (m : List Byte) : List HostMove := (chunks m).map fun c => issueInstr (absorbOfChunk c)

/-- `SQUEEZE` (R98): READ 0 to READ 3. -/
def squeezeReads : List HostMove :=
  [issueInstr (.read 0), issueInstr (.read 1), issueInstr (.read 2), issueInstr (.read 3)]

/-- `HASH m` (R98). -/
def hashScript (m : List Byte) : List HostMove :=
  issueInstr .init :: (absorbMessage m ++ (issueInstr .final :: .waitDone :: squeezeReads))

/-- T(L) (R243): the edges from the one that accepts INIT to the first one after which `phase` = SQUEEZE. -/
def edgesToSqueeze (len : Nat) : Nat := 1 + chunkCount len + 1 + 24 * permutationCount len

end Sys2Proof.Machine
end

