-- ==== Sys2Proof/Safety.lean ====
section
/-! DEFINITION. Safety: the states and runs the statements speak of: the invariant of spec/10_state.md R44, the state of
a hash computation under way (spec/41_sponge.md R169), and the end of a hashing run (R174). -/

namespace Sys2Proof.Machine

open Sys2Proof

/-- n rising edges in sequence, stopping at the first that answers no next state: `Host.Core.run` on this machine. -/
def edges : Nat → State → Host.Outcome State Fault Refusal
  | 0, s => .next s
  | n + 1, s =>
    match step s with
    | .next t => edges n t
    | .fault r => .fault r
    | .refused r => .refused r

/-- Outside BUSY the phase is the one `next` names and `round` is 0; SQUEEZE is entered, and FINAL's permutation runs,
with the cursor at 0. The part on `round` is R44; the rest is read from R133 and R161 to R167 (DEDUCED, log entry 11). -/
def State.Inv (s : State) : Prop :=
  (s.phase ≠ .busy → s.phase = s.next.toPhase ∧ s.round = 0) ∧ (s.next = .squeeze → s.cursor = 0)

/-- The registers of the two states are equal; the host's moves may differ. -/
def State.SameRegisters (s t : State) : Prop := { s with script := t.script } = t

/-- The message m has been absorbed since the last INIT or reset, and none of it is padded yet (R169). -/
def State.Absorbed (s : State) (m : List Byte) : Prop :=
  s.phase = .absorb ∧ s.A = spongeState m ∧ s.cursor.val = m.length % 136

/-- `rst` stays low at the next n edges (R134). -/
def State.RstLow (s : State) (n : Nat) : Prop :=
  ∀ j < n, ∀ u, edges j s = .next u → u.port.rst = false

/-- t is the state at the end of a hashing run that starts at s (R174): n edges later, and no earlier edge of it left
`phase` = SQUEEZE. -/
def RunEndsAfter (n : Nat) (s t : State) : Prop :=
  edges n s = .next t ∧ t.phase = .squeeze ∧
    ∀ j, 1 ≤ j → j < n → ∀ u, edges j s = .next u → u.phase ≠ .squeeze

end Sys2Proof.Machine
end

