-- ==== Sys2Proof/Certificates/Slice0/Obligations.lean ====
section
/-! DEFINITION. Obligations: the statements for the provers, each a rule of spec/ or a consequence of some. -/

open Sys2Proof Sys2Proof.Machine

/-! ## Encoding (spec/30_encoding.md) -/

/-- R97's two worked encodings, and one word for each row of the opcode map, from its bits (R88; spec/95 section 2.12). -/
def Obligations.AssembledWordsDecode : Prop :=
  encode (.absorb 3 0x636261) = (0x00000032#32, 0x0000000000636261#64) ∧
  encode (.read 3) = (0x00000305#32, 0#64) ∧
  (∀ din, decode 0x00000000 din = .ok .nop) ∧
  (∀ din, decode 0x00000001 din = .ok .init) ∧
  (∀ din, decode 0x00000082 din = .ok (.absorb 8 din)) ∧
  (∀ din, decode 0x00000003 din = .ok .final) ∧
  (∀ din, decode 0x00000004 din = .ok .permute) ∧
  (∀ din, decode 0x00001805 din = .ok (.read 24)) ∧
  (∀ din, decode 0x00000092 din = .error .byteCountOutOfRange) ∧
  (∀ din, decode 0x00001905 din = .error .laneOutOfRange) ∧
  (∀ din, decode 0x00002005 din = .error .unusedFieldNonzero) ∧
  (∀ din, decode 0x00000006 din = .error .reservedOp)

/-- The decoder gives back every well-formed command the assembler encodes, with every operand (R88, R97). -/
def Obligations.DecodeOfEncode : Prop :=
  ∀ i : Instr, i.wf = true → decode (encode i).1 (encode i).2 = .ok i

/-- A word the decoder takes is the one word the assembler gives that command, and the command is well formed: decoding
is strict (R89). `din` comes back for ABSORB, the only command that reads it (R92). -/
def Obligations.EncodeOfDecode : Prop :=
  ∀ (cmd : CmdWord) (din : Lane) (i : Instr), decode cmd din = .ok i →
    i.wf = true ∧ encodeCmd i = cmd ∧ ∀ n d, i = .absorb n d → d = din ∧ encodeDin i = din

/-- R89: an accepted word raises ILLEGAL exactly when `IllegalFormat` holds of it; 37 words are legal: one each of
NOP, INIT, FINAL and PERMUTE, 8 of ABSORB and 25 of READ. -/
def Obligations.IllegalFormatRaisesIllegalExactly : Prop :=
  (∀ (s : State) (cmd : CmdWord) (din : Lane), s.phase ≠ .busy → s.err = .none →
    ((∃ t, execute cmd din s = .next t ∧ t.err = .illegal) ↔
      (cmd.extractLsb' 0 4).toNat ≥ 6 ∨
      (((cmd.extractLsb' 0 4).toNat = 0 ∨ (cmd.extractLsb' 0 4).toNat = 1 ∨ (cmd.extractLsb' 0 4).toNat = 3 ∨
          (cmd.extractLsb' 0 4).toNat = 4) ∧ cmd.extractLsb' 4 28 ≠ 0) ∨
      ((cmd.extractLsb' 0 4).toNat = 2 ∧ (cmd.extractLsb' 8 24 ≠ 0 ∨ (cmd.extractLsb' 4 4).toNat = 0 ∨
          (cmd.extractLsb' 4 4).toNat > 8)) ∨
      ((cmd.extractLsb' 0 4).toNat = 5 ∧ (cmd.extractLsb' 13 19 ≠ 0 ∨ (cmd.extractLsb' 4 4).toNat ≠ 0 ∨
          (cmd.extractLsb' 8 5).toNat > 24)))) ∧
  ∃ words : List CmdWord, words.length = 37 ∧ words.Nodup ∧
    (∀ cmd, cmd ∈ words ↔ ∀ din, ∃ i, decode cmd din = .ok i) ∧
    (∀ op ∈ [0, 1, 3, 4], (words.filter fun w => decide ((w.extractLsb' 0 4).toNat = op)).length = 1) ∧
    (words.filter fun w => decide ((w.extractLsb' 0 4).toNat = 2)).length = 8 ∧
    (words.filter fun w => decide ((w.extractLsb' 0 4).toNat = 5)).length = 25

/-- R88: a word is a legal command exactly when `cmd & mask = match` for its row and the row's range condition holds. -/
def Obligations.OpcodeMapSelectsTheCommand : Prop :=
  ∀ (cmd : CmdWord) (din : Lane) (i : Instr), decode cmd din = .ok i ↔
    (i = .nop ∧ cmd &&& 0xFFFFFFFF#32 = 0x00000000#32) ∨
    (i = .init ∧ cmd &&& 0xFFFFFFFF#32 = 0x00000001#32) ∨
    (i = .absorb (cmd.extractLsb' 4 4) din ∧ cmd &&& 0xFFFFFF0F#32 = 0x00000002#32 ∧
      1 ≤ (cmd.extractLsb' 4 4).toNat ∧ (cmd.extractLsb' 4 4).toNat ≤ 8) ∨
    (i = .final ∧ cmd &&& 0xFFFFFFFF#32 = 0x00000003#32) ∨
    (i = .permute ∧ cmd &&& 0xFFFFFFFF#32 = 0x00000004#32) ∨
    (i = .read (cmd.extractLsb' 8 5) ∧ cmd &&& 0xFFFFE0FF#32 = 0x00000005#32 ∧ (cmd.extractLsb' 8 5).toNat ≤ 24)

/-- R90: every word with a reserved OP is accepted at the handshake and records ILLEGAL; nothing else changes. -/
def Obligations.ReservedOpOnlyRecordsIllegal : Prop :=
  ∀ s : State, s.legal = true → s.cmdReady = true → s.port.cmdValid = true →
    (s.port.cmd.extractLsb' 0 4).toNat ≥ 6 →
    s.accepts = true ∧ ∃ t, step s = .next t ∧ t.err = (if s.err = .none then .illegal else s.err) ∧
      t.SameRegisters { s with err := t.err }

/-! ## Errors (spec/60_exceptions.md) -/

/-- R208 and R99: an accepted word is checked for ILLEGAL, then PHASE, then OVERRUN, and, where no error applies, the
command its OP selects is carried out with its fields. -/
def Obligations.ExecuteChecksThenDispatches : Prop :=
  ∀ (s : State) (cmd : CmdWord) (din : Lane), s.phase ≠ .busy →
    let op := (cmd.extractLsb' 0 4).toNat
    let e : ErrCode :=
      if illegalFormat cmd = true then .illegal
      else if (op = 2 ∨ op = 3 ∨ op = 4) ∧ s.phase ≠ .absorb then .phase
      else if op = 2 ∧ s.cursor.val + (cmd.extractLsb' 4 4).toNat > 136 then .overrun
      else .none
    checkCmd cmd s = e ∧
    execute cmd din s =
      if e ≠ .none then .next (raiseCmdError e s)
      else match op with
        | 0 => exec .nop s
        | 1 => exec .init s
        | 2 => exec (.absorb (cmd.extractLsb' 4 4) din) s
        | 3 => exec .final s
        | 4 => exec .permute s
        | _ => exec (.read (cmd.extractLsb' 8 5)) s

/-- R207: a command that fails its checks records its error if none is recorded yet, and changes nothing else. -/
def Obligations.FirstErrorIsKept : Prop :=
  ∀ (s : State) (cmd : CmdWord) (din : Lane), s.phase ≠ .busy → checkCmd cmd s ≠ .none →
    ∃ t, execute cmd din s = .next t ∧
      (s.err = .none → t.err = checkCmd cmd s) ∧ (s.err ≠ .none → t.err = s.err) ∧
      t.A = s.A ∧ t.phase = s.phase ∧ t.next = s.next ∧ t.round = s.round ∧ t.cursor = s.cursor ∧
      t.dout = s.dout ∧ t.script = s.script

/-- R210: only an accepted legal INIT and reset clear `err`, both do, and while it is set every other legal command
executes as it would without it. -/
def Obligations.ErrClearedOnlyByInitOrReset : Prop :=
  (∀ s t : State, s.err ≠ .none → step s = .next t → t.err ≠ s.err →
    t.err = .none ∧ (s.port.rst = true ∨ (s.accepts = true ∧ decode s.port.cmd s.port.din = .ok .init))) ∧
  (∀ s : State, s.port.rst = true → ∃ t, step s = .next t ∧ t.err = .none) ∧
  (∀ s : State, s.legal = true → s.accepts = true → decode s.port.cmd s.port.din = .ok .init →
    ∃ t, step s = .next t ∧ t.err = .none) ∧
  (∀ (s : State) (i : Instr) (e : ErrCode), s.phase ≠ .busy → checkInstr i s = .none →
    ∃ t, exec i { s with err := .none } = .next t ∧ t.err = .none ∧
      exec i { s with err := e } = .next (if i = .init then t else { t with err := e }))

/-- R203's table: what each well-formed command does in each phase: execute (its error code stays), PHASE, OVERRUN, or
be held. That the meaning asked of a BUSY state answers the state unchanged is the model's way to say 'held' (DEDUCED,
log entry 5); a step never asks it. -/
def Obligations.PhaseTable : Prop :=
  (∀ (s : State) (i : Instr), s.phase = .busy → s.cmdReady = false ∧ exec i s = .next s) ∧
  (∀ s : State, s.phase ≠ .busy →
    exec .nop s = .next s ∧
    exec .init s = .next { State.reset with script := s.script } ∧
    ∀ lane : BitVec 5, lane.toNat ≤ 24 → exec (.read lane) s = .next { s with dout := selectLane s.A lane }) ∧
  (∀ s : State, s.phase = .squeeze →
    exec .final s = .next (raiseCmdError .phase s) ∧
    exec .permute s = .next (raiseCmdError .phase s) ∧
    ∀ (n : BitVec 4) (din : Lane), (Instr.absorb n din).wf = true →
      exec (.absorb n din) s = .next (raiseCmdError .phase s)) ∧
  (∀ s : State, s.phase = .absorb →
    (∃ t, exec .final s = .next t ∧ t.phase = .busy ∧ t.err = s.err) ∧
    (∃ t, exec .permute s = .next t ∧ t.phase = .busy ∧ t.err = s.err) ∧
    ∀ (n : BitVec 4) (din : Lane), (Instr.absorb n din).wf = true →
      (s.cursor.val + n.toNat ≤ 136 →
        ∃ t, exec (.absorb n din) s = .next t ∧ t.err = s.err ∧ t.cursor.val = (s.cursor.val + n.toNat) % 136) ∧
      (s.cursor.val + n.toNat > 136 → exec (.absorb n din) s = .next (raiseCmdError .overrun s)))

/-- R204: a well-formed ABSORB that would write past byte 135 raises OVERRUN; no byte is written and the cursor stays. -/
def Obligations.OverrunWritesNothing : Prop :=
  ∀ (s : State) (n : BitVec 4) (din : Lane), s.phase = .absorb → (Instr.absorb n din).wf = true →
    s.cursor.val + n.toNat > 136 →
    ∃ t, exec (.absorb n din) s = .next t ∧ t.err = (if s.err = .none then .overrun else s.err) ∧
      (∀ k : Fin 200, sbyte t.A k = sbyte s.A k) ∧ t.cursor = s.cursor ∧ t = { s with err := t.err }

/-- R84: while `cmd_ready` = 0, in BUSY or in reset, the values on the port have no effect on the block; without
`cmd_valid` nothing of `cmd` and `din` is sampled either; what an accepting edge executes is what the port holds then. -/
def Obligations.CommandSampledOnlyWhenAccepted : Prop :=
  (∀ (s : State) (p q : PortIn) (rest : List HostMove), s.phase = .busy → p.rst = false → q.rst = false →
    step { s with script := .drive p :: rest } = step { s with script := .drive q :: rest }) ∧
  (∀ (s : State) (p q : PortIn) (rest : List HostMove), p.rst = q.rst → p.cmdValid = false → q.cmdValid = false →
    step { s with script := .drive p :: rest } = step { s with script := .drive q :: rest }) ∧
  (∀ (s : State) (p q : PortIn) (rest : List HostMove), p.rst = true → q.rst = true →
    step { s with script := .drive p :: rest } = step { s with script := .drive q :: rest }) ∧
  (∀ s : State, s.legal = true → s.accepts = true →
    ∃ t, execute s.port.cmd s.port.din s = .next t ∧ step s = .next (advanceHost true t))

/-! ## The commands (spec/41_sponge.md, spec/40_permutation.md) -/

/-- R160: NOP changes no register, whatever `din`; any of cmd[31:4] set is ILLEGAL; presenting it is the same as
presenting nothing, but for being accepted. -/
def Obligations.NopChangesNothing : Prop :=
  ∀ s : State, s.phase ≠ .busy →
    exec .nop s = .next s ∧
    (∀ din, execute 0x00000000 din s = .next s) ∧
    (∀ (cmd : CmdWord) (din : Lane), cmd.extractLsb' 0 4 = 0 → cmd.extractLsb' 4 28 ≠ 0 →
      execute cmd din s = .next (raiseCmdError .illegal s)) ∧
    (s.legal = true → ∀ (din : Lane) (rest : List HostMove),
      State.accepts { s with script := .drive { rst := false, cmdValid := true, cmd := 0, din := din } :: rest } = true ∧
      State.accepts { s with script := .drive .idle :: rest } = false ∧
      step { s with script := .drive { rst := false, cmdValid := true, cmd := 0, din := din } :: rest }
        = step { s with script := .drive .idle :: rest })

/-- R161: INIT writes every register's reset value, whatever `din`; an illegal INIT clears nothing and records ILLEGAL. -/
def Obligations.InitClearsEveryRegister : Prop :=
  ∀ s : State, s.phase ≠ .busy →
    (∃ t, exec .init s = .next t ∧ (∀ i : Fin 25, t.A[i] = 0) ∧ t.phase = .absorb ∧ t.next = .absorb ∧ t.round = 0 ∧
      t.cursor = 0 ∧ t.err = .none ∧ t.dout = 0 ∧ t.script = s.script ∧
      (∀ din, execute 0x00000001 din s = .next t)) ∧
    (∀ (cmd : CmdWord) (din : Lane), cmd.extractLsb' 0 4 = 1 → cmd.extractLsb' 4 28 ≠ 0 →
      execute cmd din s = .next (raiseCmdError .illegal s))

/-- R162: ABSORB XORs its N bytes into the state bytes from the cursor on and changes no other byte; the cursor
advances, or, where the block fills, returns to 0 as the engine starts; its errors in their order. -/
def Obligations.AbsorbXorsItsBytes : Prop :=
  (∀ (s : State) (n : BitVec 4) (din : Lane), s.phase = .absorb → 1 ≤ n.toNat → n.toNat ≤ 8 →
    s.cursor.val + n.toNat ≤ 136 →
    ∃ t, exec (.absorb n din) s = .next t ∧
      execute ((n.setWidth 32 <<< 4) ||| 0x2#32) din s = .next t ∧
      (∀ k : Fin 200, sbyte t.A k =
        if s.cursor.val ≤ k.val ∧ k.val < s.cursor.val + n.toNat then
          sbyte s.A k ^^^ din.extractLsb' (8 * (k.val - s.cursor.val)) 8
        else sbyte s.A k) ∧
      (if s.cursor.val + n.toNat = 136 then
        t.cursor = 0 ∧ t.phase = .busy ∧ t.next = .absorb ∧ t.round = 0
      else t.cursor.val = s.cursor.val + n.toNat ∧ t.phase = .absorb ∧ t.next = s.next ∧ t.round = s.round) ∧
      t.err = s.err ∧ t.dout = s.dout ∧ t.script = s.script) ∧
  (∀ (s : State) (cmd : CmdWord) (din : Lane), s.phase ≠ .busy → cmd.extractLsb' 0 4 = 2 →
    ((cmd.extractLsb' 4 4).toNat = 0 ∨ (cmd.extractLsb' 4 4).toNat > 8 ∨ cmd.extractLsb' 8 24 ≠ 0) →
      execute cmd din s = .next (raiseCmdError .illegal s)) ∧
  (∀ (s : State) (n : BitVec 4) (din : Lane), 1 ≤ n.toNat → n.toNat ≤ 8 →
    (s.phase = .squeeze → exec (.absorb n din) s = .next (raiseCmdError .phase s)) ∧
    (s.phase = .absorb → s.cursor.val + n.toNat > 136 →
      exec (.absorb n din) s = .next (raiseCmdError .overrun s)))

/-- With N = 8 at a cursor that is a multiple of 8, ABSORB XORs `din` into one lane as one number (R162, R63). -/
def Obligations.AlignedAbsorbXorsOneLane : Prop :=
  ∀ (s : State) (din : Lane) (i : Fin 17), s.phase = .absorb → s.cursor.val = 8 * i.val →
    ∃ t, exec (.absorb 8 din) s = .next t ∧
      ∀ j : Fin 25, t.A[j] = if j.val = i.val then s.A[j] ^^^ din else s.A[j]

/-- The bits of `din` above 8N-1 have no effect on ABSORB (R63), and no other command's effect or legality depends on
`din` (R92). -/
def Obligations.UnusedDinBitsAreIgnored : Prop :=
  (∀ (s : State) (n : BitVec 4) (d e : Lane),
    (∀ z, z < 8 * n.toNat → d.getLsbD z = e.getLsbD z) → exec (.absorb n d) s = exec (.absorb n e) s) ∧
  (∀ (s : State) (cmd : CmdWord) (d e : Lane), cmd.extractLsb' 0 4 ≠ 2 → execute cmd d s = execute cmd e s)

/-- R164: FINAL XORs 0x01 into the byte at the cursor and 0x80 into byte 135 (0x81 where they coincide), returns the
cursor to 0 and starts the final permutation; ILLEGAL and PHASE as the rule says. -/
def Obligations.FinalPadsAndStartsTheEngine : Prop :=
  (∀ s : State, s.phase = .absorb →
    ∃ t, exec .final s = .next t ∧
      (∀ k : Fin 200, sbyte t.A k =
        sbyte s.A k ^^^ (if k.val = s.cursor.val then 0x01#8 else 0#8) ^^^ (if k.val = 135 then 0x80#8 else 0#8)) ∧
      t.cursor = 0 ∧ t.phase = .busy ∧ t.next = .squeeze ∧ t.round = 0 ∧
      t.err = s.err ∧ t.dout = s.dout ∧ t.script = s.script ∧ ∀ din, execute 0x00000003 din s = .next t) ∧
  (∀ (s : State) (cmd : CmdWord) (din : Lane), s.phase ≠ .busy → cmd.extractLsb' 0 4 = 3 → cmd.extractLsb' 4 28 ≠ 0 →
    execute cmd din s = .next (raiseCmdError .illegal s)) ∧
  (∀ s : State, s.phase = .squeeze → exec .final s = .next (raiseCmdError .phase s))

/-- R166: READ copies lane LANE of the state to `dout` and writes nothing else, whatever `din`; its ILLEGAL words. -/
def Obligations.ReadCopiesTheLane : Prop :=
  ∀ s : State, s.phase ≠ .busy →
    (∀ (lane : BitVec 5) (h : lane.toNat < 25),
      exec (.read lane) s = .next { s with dout := s.A[lane.toNat] } ∧
      ∀ din, execute ((lane.setWidth 32 <<< 8) ||| 0x5#32) din s = .next { s with dout := s.A[lane.toNat] }) ∧
    (∀ (cmd : CmdWord) (din : Lane), cmd.extractLsb' 0 4 = 5 →
      ((cmd.extractLsb' 8 5).toNat > 24 ∨ cmd.extractLsb' 4 4 ≠ 0 ∨ cmd.extractLsb' 13 19 ≠ 0) →
      execute cmd din s = .next (raiseCmdError .illegal s))

/-- R135: PERMUTE enters BUSY and keeps A, cursor, err and dout; 24 edges later, with `rst` low, A is permuted once,
the phase is ABSORB and the cursor is as it was; ILLEGAL and PHASE as the rule says. -/
def Obligations.PermuteRunsThePermutation : Prop :=
  (∀ s : State, s.phase = .absorb →
    ∃ t, exec .permute s = .next t ∧ t = { s with phase := .busy, next := .absorb, round := 0 } ∧
      (∀ din, execute 0x00000004 din s = .next t) ∧
      (t.RstLow 24 → ∃ u, edges 24 t = .next u ∧ u.A = keccakF s.A ∧ u.phase = .absorb ∧ u.cursor = s.cursor ∧
        u.err = s.err ∧ u.dout = s.dout)) ∧
  (∀ (s : State) (cmd : CmdWord) (din : Lane), s.phase ≠ .busy → cmd.extractLsb' 0 4 = 4 → cmd.extractLsb' 4 28 ≠ 0 →
    execute cmd din s = .next (raiseCmdError .illegal s)) ∧
  (∀ s : State, s.phase = .squeeze → exec .permute s = .next (raiseCmdError .phase s))

/-- What each command leaves unchanged (the table of spec/10_state.md section 1, and R160 to R166, R135, R207; `script` is the
model's own field, log entry 1). -/
def Obligations.CommandFrames : Prop :=
  ∀ (i : Instr) (s t : State), exec i s = .next t →
    t.script = s.script ∧
    (i ≠ .init → ∀ l : Fin 25, 17 ≤ l.val → t.A[l] = s.A[l]) ∧
    (i = .nop ∨ i = .permute ∨ (∃ lane, i = .read lane) → t.A = s.A) ∧
    (i ≠ .init → (∀ lane, i ≠ .read lane) → t.dout = s.dout) ∧
    (i = .nop ∨ (∃ lane, i = .read lane) →
      t.phase = s.phase ∧ t.next = s.next ∧ t.round = s.round ∧ t.cursor = s.cursor) ∧
    (i = .permute → t.cursor = s.cursor) ∧
    (i ≠ .init → t.err ≠ s.err → s.err = .none ∧ t.err = checkInstr i s ∧ t = { s with err := t.err })

/-- ABSORB stores to the N bytes from the cursor on and FINAL to the byte at the cursor and byte 135: every other byte of
the state reads as before, for every operand (R61, R162, R164). -/
def Obligations.StoresTouchOnlyTheirBytes : Prop :=
  (∀ (s t : State) (n : BitVec 4) (din : Lane), exec (.absorb n din) s = .next t →
    ∀ k : Fin 200, ¬ (s.cursor.val ≤ k.val ∧ k.val < s.cursor.val + n.toNat) → sbyte t.A k = sbyte s.A k) ∧
  (∀ s t : State, exec .final s = .next t →
    ∀ k : Fin 200, k.val ≠ s.cursor.val → k.val ≠ 135 → sbyte t.A k = sbyte s.A k)

/-- NOP, INIT and READ are idempotent (R69). -/
def Obligations.NopInitReadAreIdempotent : Prop :=
  ∀ (s t : State) (i : Instr), i = .nop ∨ i = .init ∨ (∃ lane, i = .read lane) → s.phase ≠ .busy →
    exec i s = .next t → exec i t = .next t

/-! ## The state's bytes (spec/10_state.md, spec/20_memory.md) -/

/-- R33: lanes are little-endian and in index order: byte k is bits 8(k mod 8)+7 .. 8(k mod 8) of lane k div 8, a lane is
its 8 bytes, and bit b of byte k is state bit 8k + b. -/
def Obligations.StateBytesAreLittleEndian : Prop :=
  (∀ (S : Lanes) (i : Fin 25) (j : Fin 8) (h : 8 * i.val + j.val < 200),
    sbyte S ⟨8 * i.val + j.val, h⟩ = S[i].extractLsb' (8 * j.val) 8) ∧
  (∀ (S : Lanes) (i : Fin 25) (b : Fin 8 → Byte), (∀ j : Fin 8, b j = sbyte S ⟨8 * i.val + j.val, by omega⟩) →
    S[i] = b 7 ++ b 6 ++ b 5 ++ b 4 ++ b 3 ++ b 2 ++ b 1 ++ b 0) ∧
  (∀ (S : Lanes) (k : Fin 200) (b : Nat) (hb : b < 8),
    (sbyte S k).getLsbD b = (S[(8 * k.val + b) / 64]'(by omega)).getLsbD ((8 * k.val + b) % 64))

/-! ## The permutation (spec/40_permutation.md) -/

/-- R15: XOR, AND, OR and NOT of lanes are bitwise; ROTL64 by its formula, and bit z of it is bit (z - n) mod 64 of v. -/
def Obligations.RotationMovesBits : Prop :=
  (∀ (v w : Lane) (z : Nat), z < 64 →
    (v ^^^ w).getLsbD z = (v.getLsbD z ^^ w.getLsbD z) ∧ (v &&& w).getLsbD z = (v.getLsbD z && w.getLsbD z) ∧
    (v ||| w).getLsbD z = (v.getLsbD z || w.getLsbD z) ∧ (~~~v).getLsbD z = !v.getLsbD z) ∧
  ∀ (v : Lane) (n : Nat), n ≤ 63 →
    (n = 0 → rotl64 v n = v) ∧
    (1 ≤ n → (rotl64 v n).toNat = ((v.toNat <<< n) ||| (v.toNat >>> (64 - n))) % 2 ^ 64) ∧
    ∀ z, z < 64 → (rotl64 v n).getLsbD z = v.getLsbD ((z + (64 - n)) % 64)

/-- R122 to R124 bit by bit: θ XORs each bit (x, y, z) with the parities of the columns (x-1, z) and (x+1, z-1); it is
the identity where every column parity is 0. -/
def Obligations.ThetaXorsTwoColumnParities : Prop :=
  ∀ (S : Lanes) (par : Fin 5 → Nat → Bool),
    (∀ x z, par x z = ((laneAt S x 0).getLsbD z ^^ (laneAt S x 1).getLsbD z ^^ (laneAt S x 2).getLsbD z ^^
      (laneAt S x 3).getLsbD z ^^ (laneAt S x 4).getLsbD z)) →
    (∀ (x y : Fin 5) (z : Nat), z < 64 →
      (columnParity S x).getLsbD z = par x z ∧
      (thetaEffect S x).getLsbD z = (par (x - 1) z ^^ par (x + 1) ((z + 63) % 64)) ∧
      (laneAt (theta S) x y).getLsbD z =
        ((laneAt S x y).getLsbD z ^^ (par (x - 1) z ^^ par (x + 1) ((z + 63) % 64)))) ∧
    ((∀ (x : Fin 5) (z : Nat), z < 64 → par x z = false) → theta S = S)

/-- R125: the table by lane index; its 24 entries off the origin are distinct and nonzero and follow the walk. -/
def Obligations.RotationTableFollowsTheWalk : Prop :=
  rotTable.toList = [0, 1, 62, 28, 27, 36, 44, 6, 55, 20, 3, 10, 43, 25, 39, 41, 45, 15, 21, 8, 18, 2, 61, 56, 14] ∧
  (∀ i : Fin 25, 1 ≤ i.val → rotTable[i] ≠ 0) ∧ rotTable.toList.Nodup ∧
  (∀ t : Fin 24,
    let p := Nat.iterate (fun p : Fin 5 × Fin 5 => (p.2, 2 * p.1 + 3 * p.2)) t.val (1, 0)
    rotOffset p.1 p.2 = ((t.val + 1) * (t.val + 2) / 2) % 64)

/-- R126: ρ rotates lane (x, y) left by ROT[x][y], bit by bit; lane (0, 0) is unchanged. -/
def Obligations.RhoRotatesEachLane : Prop :=
  ∀ S : Lanes, laneAt (rho S) 0 0 = laneAt S 0 0 ∧
    ∀ (x y : Fin 5) (z : Nat), z < 64 →
      rotOffset x y < 64 ∧
      (laneAt (rho S) x y).getLsbD z = (laneAt S x y).getLsbD ((z + (64 - rotOffset x y)) % 64)

/-- R127: π by its formula, by where each lane moves, and by the table of source indices; it is a bijection. -/
def Obligations.PiMovesLanes : Prop :=
  (∀ (S : Lanes) (x y : Fin 5),
    laneAt (pi S) x y = laneAt S (x + 3 * y) x ∧ laneAt (pi S) y (2 * x + 3 * y) = laneAt S x y) ∧
  (∀ (S : Lanes) (i : Fin 25), (pi S)[i] =
    (S[(#v[0, 6, 12, 18, 24, 3, 9, 10, 16, 22, 1, 7, 13, 19, 20, 4, 5, 11, 17, 23, 2, 8, 14, 15, 21]
      : Vector (Fin 25) 25)[i]])) ∧
  Function.Bijective pi

/-- R128 bit by bit: χ combines each bit with the next two of its row; zero goes to zero and all ones to all ones. -/
def Obligations.ChiCombinesRows : Prop :=
  (∀ (S : Lanes) (x y : Fin 5) (z : Nat), z < 64 →
    (laneAt (chi S) x y).getLsbD z =
      ((laneAt S x y).getLsbD z ^^ ((!(laneAt S (x + 1) y).getLsbD z) && (laneAt S (x + 2) y).getLsbD z))) ∧
  chi (Vector.replicate 25 0) = Vector.replicate 25 0 ∧
  chi (Vector.replicate 25 (BitVec.allOnes 64)) = Vector.replicate 25 (BitVec.allOnes 64)

/-- R130: ι XORs RC[r] into lane (0, 0) and changes no other lane. -/
def Obligations.IotaXorsTheOriginLane : Prop :=
  ∀ (S : Lanes) (r : Fin 24), laneAt (iota S r) 0 0 = laneAt S 0 0 ^^^ roundConstant r ∧
    ∀ x y : Fin 5, (x, y) ≠ (0, 0) → laneAt (iota S r) x y = laneAt S x y

/-- R129: the table of round constants, and its check: bit 2^j - 1 of RC[r] is rc(j + 7r), the LFSR of
x^8 + x^6 + x^5 + x^4 + 1, and no other bit is set. -/
def Obligations.RoundConstantsFollowTheLfsr : Prop :=
  (List.finRange 12).map (fun r => (roundConstant ⟨r.val, by omega⟩, roundConstant ⟨r.val + 12, by omega⟩)) =
    [(0x0000000000000001#64, 0x000000008000808B#64),
     (0x0000000000008082#64, 0x800000000000008B#64),
     (0x800000000000808A#64, 0x8000000000008089#64),
     (0x8000000080008000#64, 0x8000000000008003#64),
     (0x000000000000808B#64, 0x8000000000008002#64),
     (0x0000000080000001#64, 0x8000000000000080#64),
     (0x8000000080008081#64, 0x000000000000800A#64),
     (0x8000000000008009#64, 0x800000008000000A#64),
     (0x000000000000008A#64, 0x8000000080008081#64),
     (0x0000000000000088#64, 0x8000000000008080#64),
     (0x0000000080008009#64, 0x0000000080000001#64),
     (0x000000008000000A#64, 0x8000000080008008#64)] ∧
  ∀ r : Fin 24, roundConstant r =
    (List.range 7).foldl (fun (acc : Lane) j =>
      let rc := Nat.iterate (fun v : BitVec 8 => if v.getLsbD 7 then (v <<< 1) ^^^ 0x71#8 else v <<< 1) (j + 7 * r.val) 1#8
      acc ||| ((rc &&& 1#8).setWidth 64 <<< (2 ^ j - 1))) 0

/-- R121: a round is θ, ρ, π, χ, ι in that order; R120: Keccak_f is the rounds 0 .. 23 in ascending order; with R121's
example, the first round on the zero state. -/
def Obligations.KeccakIsTwentyFourRounds : Prop :=
  (∀ (S : Lanes) (r : Fin 24), keccakRound S r = iota (chi (pi (rho (theta S)))) r) ∧
  (∀ S : Lanes, keccakF S = (List.finRange 24).foldl keccakRound S) ∧
  keccakRound (Vector.replicate 25 0) 0 = (Vector.replicate 25 0).set 0 1

/-- R120's example: Keccak_f on the zero state has lane 0 = 0xf1258f7940e1dde7, which no wrong entry of the tables gives
(spec/95_test_vectors.md section 2.6). -/
def Obligations.KeccakOfZeroStateVector : Prop :=
  (keccakF (Vector.replicate 25 0))[0] = 0xf1258f7940e1dde7#64

/-! ## The clock edge and the engine (spec/30_encoding.md, spec/40_permutation.md) -/

/-- R82: at an edge exactly one of four things happens, tested in this order: reset, an engine round, an accepted
command, nothing. `legal` rules out the states that R44 says no run reaches (log entry 4). -/
def Obligations.ClockEdgeDoesOneOfFourThings : Prop :=
  ∀ s : State, s.legal = true →
    (s.accepts = true ↔ s.port.rst = false ∧ s.phase ≠ .busy ∧ s.port.cmdValid = true) ∧
    ∃ t, step s = .next t ∧
      if s.port.rst = true then t.SameRegisters State.reset
      else if s.phase = .busy then t.SameRegisters (engineRound s)
      else if s.port.cmdValid = true then
        ∃ u, execute s.port.cmd s.port.din s = .next u ∧ t.SameRegisters u
      else t.SameRegisters s

/-- R83: `cmd_ready` is `rst` = 0 and `phase` ≠ BUSY, and depends on no other input; an illegal command is accepted and
then records its error. -/
def Obligations.ReadyDependsOnRstAndPhaseOnly : Prop :=
  (∀ s : State, s.cmdReady = true ↔ s.port.rst = false ∧ s.phase ≠ .busy) ∧
  (∀ s t : State, s.port.rst = t.port.rst → s.phase = t.phase → s.cmdReady = t.cmdReady) ∧
  (∀ s : State, s.legal = true → s.cmdReady = true → s.port.cmdValid = true → illegalFormat s.port.cmd = true →
    s.accepts = true ∧ step s = .next (advanceHost true (raiseCmdError .illegal s)))

/-- When the word at the port is accepted and decodes to a command, the edge runs that command, and around it only moves
the host on; a held command is not run (R82, R99; how the host moves on is the model's choice, log entry 1). -/
def Obligations.StepRunsTheDecodedCommand : Prop :=
  (∀ (s : State) (i : Instr), s.legal = true → s.accepts = true → decode s.port.cmd s.port.din = .ok i →
    ∃ t, exec i s = .next t ∧ step s = .next (advanceHost true t)) ∧
  (∀ t : State, (advanceHost true t).SameRegisters t) ∧
  (∀ (s : State) (cmd : CmdWord) (din : Lane) (rest : List HostMove), s.script = .issue cmd din :: rest →
    s.port = { rst := false, cmdValid := true, cmd := cmd, din := din } ∧
    (advanceHost true s).script = rest ∧ (advanceHost false s).script = s.script)

/-- R230: at every edge with `rst` = 1, from any state, every register takes its reset value and no command is accepted. -/
def Obligations.ResetOverridesEverything : Prop :=
  ∀ s : State, s.port.rst = true →
    s.accepts = false ∧ ∃ t, step s = .next t ∧ (∀ i : Fin 25, t.A[i] = 0) ∧ t.phase = .absorb ∧ t.next = .absorb ∧
      t.round = 0 ∧ t.cursor = 0 ∧ t.err = .none ∧ t.dout = 0

/-- After reset the block is as after INIT, and an INIT right after reset changes nothing (R233). -/
def Obligations.ResetLeavesWhatInitLeaves : Prop :=
  (∀ s t u : State, s.port.rst = true → s.phase ≠ .busy → step s = .next t → exec .init s = .next u →
    t.SameRegisters u) ∧
  exec .init State.reset = .next State.reset

/-- R133: at an edge with `rst` = 0 and `phase` = BUSY, A takes one round, `round` advances, and round 23 ends BUSY in
the phase `next` names; cursor, err, dout and next are unchanged and no command is accepted. -/
def Obligations.EngineEdgePerformsOneRound : Prop :=
  ∀ s : State, s.port.rst = false → s.phase = .busy →
    s.accepts = false ∧ ∃ t, step s = .next t ∧ t.A = keccakRound s.A s.round ∧
      (if s.round = 23 then t.phase = (if s.next = .squeeze then .squeeze else .absorb) ∧ t.round = 0
       else t.phase = .busy ∧ t.round.val = s.round.val + 1) ∧
      t.cursor = s.cursor ∧ t.err = s.err ∧ t.dout = s.dout ∧ t.next = s.next

/-- From BUSY at round 0, with `rst` low, 24 edges apply Keccak_f, end in the phase `next` names with `round` = 0, and no
command is accepted at any of them (R134). -/
def Obligations.PermutationTakesTwentyFourEdges : Prop :=
  ∀ s : State, s.phase = .busy → s.round = 0 → s.RstLow 24 →
    (∀ j < 24, ∃ u, edges j s = .next u ∧ u.phase = .busy ∧ u.cmdReady = false) ∧
    ∃ t, edges 24 s = .next t ∧ t.A = keccakF s.A ∧ t.phase = s.next.toPhase ∧ t.round = 0 ∧
      t.cursor = s.cursor ∧ t.err = s.err ∧ t.dout = s.dout ∧ t.next = s.next

/-- A READ issued while the engine runs is held and then reads the permuted state (R237; that the host keeps it until it
is accepted is the model's host, log entry 1). -/
def Obligations.HeldReadSeesThePermutedState : Prop :=
  ∀ (s : State) (lane : BitVec 5) (h : lane.toNat < 25) (rest : List HostMove),
    s.phase = .busy → s.round = 0 → s.script = .issue (encodeCmd (.read lane)) 0 :: rest →
    ∃ t, edges 25 s = .next t ∧ t.dout = (keccakF s.A)[lane.toNat] ∧ t.A = keccakF s.A ∧ t.script = rest

/-! ## Outputs and whole-machine rules -/

/-- R93 and R94: the fields of the status word, and its reserved bits read 0; PHASE 3 and ERR 4 to 7 never appear. -/
def Obligations.StatusWordFields : Prop :=
  ∀ s : State,
    s.status.extractLsb' 0 2 = (match s.phase with | .absorb => 0#2 | .busy => 1#2 | .squeeze => 2#2) ∧
    s.status.getLsbD 2 = s.cmdReady ∧
    s.status.getLsbD 3 = decide (s.phase = .squeeze) ∧ s.status.getLsbD 3 = s.digestValid ∧
    s.status.extractLsb' 4 3 = (match s.err with | .none => 0#3 | .illegal => 1#3 | .phase => 2#3 | .overrun => 3#3) ∧
    s.status.getLsbD 7 = false ∧
    (s.status.extractLsb' 8 8).toNat = s.cursor.val ∧
    (s.status.extractLsb' 16 5).toNat = s.round.val ∧
    s.status.extractLsb' 21 11 = 0#11

/-- `digest` carries lanes 0..3, its byte k is Sbyte(k), and `digest_valid` is 1 exactly in SQUEEZE (R95, R64). -/
def Obligations.DigestPortCarriesLanes : Prop :=
  ∀ s : State,
    (∀ (i : Fin 25), i.val < 4 → s.digest.extractLsb' (64 * i.val) 64 = s.A[i]) ∧
    (∀ k : Fin 200, k.val < 32 → s.digest.extractLsb' (8 * k.val) 8 = sbyte s.A k) ∧
    (s.digestValid = true ↔ s.phase = .squeeze)

/-- R96: `dout` changes only at an edge that accepts a legal READ, an INIT, or a reset. -/
def Obligations.DoutChangesOnlyOnReadInitReset : Prop :=
  ∀ s t : State, step s = .next t → t.dout ≠ s.dout →
    s.port.rst = true ∨ (s.accepts = true ∧
      (decode s.port.cmd s.port.din = .ok .init ∨ ∃ lane, decode s.port.cmd s.port.din = .ok (.read lane)))

/-- R61: nothing but the permutation, INIT and reset writes bytes 136..199, that is lanes 17..24. -/
def Obligations.CapacityChangesOnlyByEngineInitReset : Prop :=
  ∀ (s t : State) (l : Fin 25), step s = .next t → 17 ≤ l.val → t.A[l] ≠ s.A[l] →
    s.port.rst = true ∨ s.phase = .busy ∨ (s.accepts = true ∧ decode s.port.cmd s.port.din = .ok .init)

/-- R167: in SQUEEZE only NOP, INIT and READ are legal, ABSORB, FINAL and PERMUTE raise PHASE, and the block stays in
SQUEEZE with its state until INIT or reset. -/
def Obligations.SqueezeIsTerminal : Prop :=
  (∀ (s : State) (i : Instr), s.phase = .squeeze → i.wf = true →
    (checkInstr i s = .none ↔ i = .nop ∨ i = .init ∨ ∃ lane, i = .read lane) ∧
    (i = .final ∨ i = .permute ∨ (∃ n din, i = .absorb n din) → exec i s = .next (raiseCmdError .phase s))) ∧
  (∀ s t : State, s.phase = .squeeze → step s = .next t →
    s.port.rst = true ∨ (s.accepts = true ∧ decode s.port.cmd s.port.din = .ok .init) ∨
      (t.phase = .squeeze ∧ t.A = s.A ∧ t.digest = s.digest ∧ t.digestValid = true))

/-- R200: no error stops the block: every legal state steps, and a command that fails its checks changes only `err`, so
the block stays ready. -/
def Obligations.ErrorsNeverStopTheBlock : Prop :=
  (∀ s : State, s.legal = true → ∃ t, step s = .next t) ∧
  (∀ s : State, s.legal = true → s.accepts = true → checkCmd s.port.cmd s ≠ .none →
    ∃ t, step s = .next t ∧ t.SameRegisters { s with err := t.err } ∧ t.legal = true ∧
      (t.port.rst = false → t.cmdReady = true))

/-- Every step from a state of the invariant leads to one: `round` is 0 outside BUSY (R44), the phase outside BUSY is
the one `next` names, and FINAL's permutation and SQUEEZE have the cursor at 0 (the last two DEDUCED, log entry 11). -/
def Obligations.StepKeepsTheInvariant : Prop :=
  ∀ s t : State, s.Inv → step s = .next t → t.Inv

/-- The state after reset meets the invariant and is legal (R44, R46). -/
def Obligations.ResetMeetsTheInvariant : Prop :=
  State.reset.Inv ∧ State.reset.legal = true

/-- Outside reset the model refuses a state with `round` ≠ 0 outside BUSY (R44, entry U2). That the stop
is this refusal is the model's choice, log entry 4. -/
def Obligations.UnreachableStateIsRefused : Prop :=
  ∀ s : State, s.port.rst = false → s.phase ≠ .busy → s.round ≠ 0 → step s = .refused .unreachableState

/-! ## Keccak-256 (spec/41_sponge.md sections 6 and 7) -/

/-- R168's padding: P has 136(⌊L/136⌋ + 1) bytes, begins with m, goes on with 0x01 and ends with bit 7 set; and the
output is always 32 bytes. -/
def Obligations.PaddedLengthAndDigestLength : Prop :=
  ∀ m : List Byte,
    (padMessage m).length = 136 * (m.length / 136 + 1) ∧
    (padMessage m).take m.length = m ∧
    (padMessage m)[m.length]? = some (if m.length % 136 = 135 then 0x81 else 0x01) ∧
    (∀ k, m.length < k → k < (padMessage m).length - 1 → (padMessage m)[k]? = some 0) ∧
    (m.length % 136 ≠ 135 → (padMessage m)[(padMessage m).length - 1]? = some 0x80) ∧
    (keccak256 m).length = 32

/-- The canonical chunking: chunks of 1 to 8 bytes whose concatenation is m, ⌈L/8⌉ of them, all of 8 bytes but the last,
and none crosses a block boundary; each chunk's ABSORB carries exactly its bytes (R170). -/
def Obligations.CanonicalChunkingSplitsTheMessage : Prop :=
  ∀ m : List Byte,
    (chunks m).flatten = m ∧ (chunks m).length = (m.length + 7) / 8 ∧
    ∀ c, c < chunkCount m.length →
      1 ≤ (chunk m c).length ∧ (chunk m c).length ≤ 8 ∧ (8 * c) % 136 + (chunk m c).length ≤ 136 ∧
      (c + 1 < chunkCount m.length → (chunk m c).length = 8) ∧
      (absorbOfChunk (chunk m c)).wf = true ∧
      dinBytes (chunk m c).length (le64 (chunk m c)) = chunk m c

/-- ABSORB refines appending to the message: where m has been absorbed, a legal ABSORB that fits the block goes on to the
state in which m and its bytes have been absorbed, through 24 rounds where it fills the block; NOP and READ keep m
absorbed, and INIT and reset leave the empty message absorbed (R169, R171). -/
def Obligations.AbsorbRefinesAppend : Prop :=
  (∀ (s : State) (m : List Byte) (n : BitVec 4) (din : Lane), s.Absorbed m → 1 ≤ n.toNat → n.toNat ≤ 8 →
    s.cursor.val + n.toNat ≤ 136 →
    ∃ t, exec (.absorb n din) s = .next t ∧ t.err = s.err ∧
      (s.cursor.val + n.toNat < 136 → t.Absorbed (m ++ dinBytes n.toNat din)) ∧
      (s.cursor.val + n.toNat = 136 → t.RstLow 24 →
        ∃ u, edges 24 t = .next u ∧ u.err = s.err ∧ u.Absorbed (m ++ dinBytes n.toNat din))) ∧
  (∀ (s : State) (m : List Byte) (i : Instr), s.Absorbed m → i.wf = true → i = .nop ∨ (∃ lane, i = .read lane) →
    ∃ t, exec i s = .next t ∧ t.err = s.err ∧ t.Absorbed m) ∧
  (∀ s : State, s.phase ≠ .busy → ∃ t, exec .init s = .next t ∧ t.Absorbed []) ∧
  State.reset.Absorbed []

/-- Where m has been absorbed, FINAL and 24 edges with `rst` low leave Keccak256(m) on `digest`, valid (R169, R171 to
R173). -/
def Obligations.FinalYieldsKeccak256 : Prop :=
  ∀ (s : State) (m : List Byte), s.Absorbed m →
    ∃ t, exec .final s = .next t ∧ t.err = s.err ∧
      (t.RstLow 24 → ∃ u, edges 24 t = .next u ∧ u.digestValid = true ∧ u.err = s.err ∧
        ∀ k, k < 32 → (keccak256 m)[k]? = some (u.digest.extractLsb' (8 * k) 8))

/-- A hashing run of m, started from any state that is not BUSY, ends after exactly T(L) edges with no error and
Keccak256(m) on `digest` (R169, R174, R243; the host as a list of moves is the model's choice, log entries 1 and 2). -/
def Obligations.HashingRunYieldsKeccak256 : Prop :=
  ∀ (s : State) (m : List Byte) (rest : List HostMove), s.phase ≠ .busy → s.legal = true →
    s.script = hashScript m ++ rest →
    ∃ t, RunEndsAfter (edgesToSqueeze m.length) s t ∧ t.err = .none ∧ t.digestValid = true ∧
      ∀ k, k < 32 → (keccak256 m)[k]? = some (t.digest.extractLsb' (8 * k) 8)
end

