-- ==== Sys2Proof/Laws/Config.lean ====
section
/-! SUPPORT. Config laws: the parameters as numerals, for arithmetic. -/

namespace Sys2Proof.Config

@[simp] theorem rateBytes_eq : rateBytes = 136 := rfl
@[simp] theorem stateBytes_eq : stateBytes = 200 := rfl
@[simp] theorem lanes_eq : lanes = 25 := rfl
@[simp] theorem rateLanes_eq : rateLanes = 17 := rfl
@[simp] theorem rounds_eq : rounds = 24 := rfl
@[simp] theorem digestBytes_eq : digestBytes = 32 := rfl
@[simp] theorem absorbMax_eq : absorbMax = 8 := rfl
@[simp] theorem padFirst_eq : padFirst = 0x01#8 := rfl
@[simp] theorem padLast_eq : padLast = 0x80#8 := rfl

end Sys2Proof.Config
end

