-- ==== Sys2Proof/Laws/Lanes.lean ====
section
/-! SUPPORT. Lane laws: coordinates and lane indices, and the bytes of the state. -/

namespace Sys2Proof.Machine

open Sys2Proof

@[simp] theorem laneX_laneIndex (x y : Fin 5) : laneX (laneIndex x y) = x := by
  apply Fin.ext; simp only [laneX, laneIndex]; omega

@[simp] theorem laneY_laneIndex (x y : Fin 5) : laneY (laneIndex x y) = y := by
  apply Fin.ext; simp only [laneY, laneIndex]; omega

@[simp] theorem laneIndex_laneX_laneY (i : Fin 25) : laneIndex (laneX i) (laneY i) = i := by
  apply Fin.ext; simp only [laneX, laneY, laneIndex]; omega

/-- Reading lane (x, y) of a tabulated array. -/
@[simp] theorem laneAt_tabulate (f : Fin 5 → Fin 5 → Lane) (x y : Fin 5) : laneAt (tabulate f) x y = f x y := by
  fin_cases x <;> fin_cases y <;> rfl

/-- Two 25-lane arrays with equal lanes are equal. -/
theorem lanes_ext {S T : Lanes} (h : ∀ x y, laneAt S x y = laneAt T x y) : S = T := by
  apply Vector.ext
  intro i hi
  have := h (laneX ⟨i, hi⟩) (laneY ⟨i, hi⟩)
  simpa [laneAt] using this

@[simp] theorem laneAt_theta (S : Lanes) (x y : Fin 5) : laneAt (theta S) x y = laneAt S x y ^^^ thetaEffect S x := by
  simp [theta]

@[simp] theorem laneAt_rho (S : Lanes) (x y : Fin 5) : laneAt (rho S) x y = rotl64 (laneAt S x y) (rotOffset x y) := by
  simp [rho]

@[simp] theorem laneAt_pi (S : Lanes) (x y : Fin 5) : laneAt (pi S) x y = laneAt S (x + 3 * y) x := by
  simp [pi]

@[simp] theorem laneAt_chi (S : Lanes) (x y : Fin 5) :
    laneAt (chi S) x y = laneAt S x y ^^^ (~~~(laneAt S (x + 1) y) &&& laneAt S (x + 2) y) := by
  simp [chi]

/-- The lanes of an XORed array: only the lane that holds the byte changes. -/
theorem getElem_xorByte (S : Lanes) (k : Fin 200) (v : Byte) (i : Nat) (h : i < 25) :
    (xorByte S k v)[i] = if (byteLane k).val = i then S[i] ^^^ (v.setWidth 64 <<< byteShift k) else S[i] := by
  unfold xorByte
  rw [Vector.getElem_set]
  split
  · next e => subst e; rfl
  · rfl

/-- The bytes ABSORB writes past the first are those of the shifted position. -/
theorem xorBytes_cons (S : Lanes) (k : Nat) (h : k < 200) (b : Byte) (bs : List Byte) :
    xorBytes S k (b :: bs) = xorBytes (xorByte S ⟨k, h⟩ b) (k + 1) bs := by
  simp [xorBytes, h]

@[simp] theorem xorBytes_nil (S : Lanes) (k : Nat) : xorBytes S k [] = S := rfl

/-- Writing one list after another is writing their concatenation. -/
theorem xorBytes_append (S : Lanes) (k : Nat) (bs cs : List Byte) :
    xorBytes S k (bs ++ cs) = xorBytes (xorBytes S k bs) (k + bs.length) cs := by
  induction bs generalizing S k with
  | nil => simp
  | cons b bs ih =>
    simp only [List.cons_append, xorBytes, ih, List.length_cons]
    congr 1
    omega

@[simp] theorem dinBytes_length (n : Nat) (din : Lane) : (dinBytes n din).length = n := by simp [dinBytes]

end Sys2Proof.Machine
end

