-- ==== Sys2Proof/Laws/Bytes.lean ====
section
/-! SUPPORT. Byte laws: what an XORed byte, an ABSORB's bytes and the padding do to each byte of the state (R17, R33). -/

namespace Sys2Proof.Machine

open Sys2Proof

/-- `Sbyte(k) ^= v` changes that byte and no other (R17). -/
theorem sbyte_xorByte (S : Lanes) (k l : Fin 200) (v : Byte) :
    sbyte (xorByte S k v) l = if l = k then sbyte S l ^^^ v else sbyte S l := by
  unfold sbyte
  rw [Fin.getElem_fin, getElem_xorByte]
  apply BitVec.eq_of_getLsbD_eq
  intro b hb
  have hl := l.isLt
  have hk := k.isLt
  by_cases hlane : (byteLane k).val = (byteLane l).val
  · simp only [hlane, if_true, BitVec.getLsbD_extractLsb', BitVec.getLsbD_xor, BitVec.getLsbD_shiftLeft,
      BitVec.getLsbD_setWidth, Fin.getElem_fin]
    have hlane' : k.val / 8 = l.val / 8 := hlane
    by_cases e : l = k
    · subst e
      have hbit : byteShift l + b < 64 := by simp only [byteShift]; omega
      simp [hbit, hb]
      intro
      omega
    · have hne : l.val ≠ k.val := fun h => e (Fin.ext h)
      simp only [e, if_false, BitVec.getLsbD_extractLsb', hb]
      by_cases c : byteShift l + b < byteShift k
      · simp [c]
      · have hout : byteShift l + b - byteShift k ≥ 8 := by
          simp only [byteShift] at c ⊢
          omega
        simp [BitVec.getLsbD_of_ge v _ hout]
  · have e : l ≠ k := by rintro rfl; exact hlane rfl
    simp [hlane, e]

/-- Bytes XORed from position k on change those bytes and no other (R162). -/
theorem sbyte_xorBytes (bs : List Byte) : ∀ (S : Lanes) (k : Nat) (l : Fin 200), k + bs.length ≤ 200 →
    sbyte (xorBytes S k bs) l =
      if h : k ≤ l.val ∧ l.val < k + bs.length then sbyte S l ^^^ bs[l.val - k]'(by omega) else sbyte S l := by
  induction bs with
  | nil => intro S k l h; simp
  | cons b bs ih =>
    intro S k l h
    rw [List.length_cons] at h
    rw [xorBytes_cons S k (by omega), ih _ _ _ (by omega), sbyte_xorByte]
    by_cases e : l.val = k
    · have hl : l = ⟨k, by omega⟩ := Fin.ext e
      have out : ¬ (k + 1 ≤ l.val ∧ l.val < k + 1 + bs.length) := by omega
      have inside : k ≤ l.val ∧ l.val < k + (bs.length + 1) := by omega
      simp [hl]
    · have hl : l ≠ ⟨k, by omega⟩ := fun h => e (by rw [h])
      rw [if_neg hl]
      by_cases c : k + 1 ≤ l.val ∧ l.val < k + 1 + bs.length
      · have inside : k ≤ l.val ∧ l.val < k + (bs.length + 1) := by omega
        have hidx : l.val - k = (l.val - (k + 1)) + 1 := by omega
        simp only [c, inside, List.length_cons, and_self, dite_true]
        congr 1
        simp [hidx]
      · have out : ¬ (k ≤ l.val ∧ l.val < k + (bs.length + 1)) := by omega
        simp only [c, out, List.length_cons, dite_false]

/-- The bytes of the state an ABSORB leaves (R162). -/
theorem sbyte_absorbLanes (n : BitVec 4) (din : Lane) (s : State) (k : Fin 200) :
    sbyte (absorbLanes n din s) k =
      if s.cursor.val ≤ k.val ∧ k.val < s.cursor.val + n.toNat then
        sbyte s.A k ^^^ dinByte din (k.val - s.cursor.val)
      else sbyte s.A k := by
  have hc := s.cursor.isLt
  have hn := n.isLt
  unfold absorbLanes
  rw [sbyte_xorBytes _ _ _ _ (by rw [dinBytes_length]; omega)]
  simp [dinBytes]

/-- The bytes of the state the padding injector leaves (R164, R165). -/
theorem sbyte_padLanes (s : State) (k : Fin 200) :
    sbyte (padLanes s) k =
      sbyte s.A k ^^^ (if k.val = s.cursor.val then 0x01#8 else 0#8) ^^^ (if k.val = 135 then 0x80#8 else 0#8) := by
  have h135 : k = (135 : Fin 200) ↔ k.val = 135 := ⟨fun h => by rw [h]; rfl, fun h => Fin.ext h⟩
  have hcur : k = s.cursor.castLE (by decide) ↔ k.val = s.cursor.val := ⟨fun h => by rw [h]; rfl, fun h => Fin.ext h⟩
  unfold padLanes
  rw [sbyte_xorByte, sbyte_xorByte]
  simp only [h135, hcur]
  split <;> split <;> simp

/-- A lane is determined by its 8 bytes (R33). -/
theorem lane_ext_bytes {S T : Lanes} {i : Nat} (hi : i < 25)
    (h : ∀ j : Fin 8, sbyte S ⟨8 * i + j.val, by omega⟩ = sbyte T ⟨8 * i + j.val, by omega⟩) : S[i] = T[i] := by
  apply BitVec.eq_of_getLsbD_eq
  intro z hz
  have hbyte := congrArg (fun v => v.getLsbD (z % 8)) (h ⟨z / 8, by omega⟩)
  have e1 : (8 * i + z / 8) / 8 = i := by omega
  have e2 : 8 * (z / 8 % 8) + z % 8 = z := by omega
  have e3 : z % 8 < 8 := by omega
  simpa [sbyte, byteLane, byteShift, BitVec.getLsbD_extractLsb', e1, e2, e3] using hbyte

/-- The state is determined by its 200 bytes (R33). -/
theorem lanes_ext_bytes {S T : Lanes} (h : ∀ k, sbyte S k = sbyte T k) : S = T := by
  apply Vector.ext
  intro i hi
  exact lane_ext_bytes hi fun j => h _

end Sys2Proof.Machine
end

