-- ==== Sys2Proof/Laws/Encoding.lean ====
section
/-! SUPPORT. Encoding laws: the fields of an assembled command word, and a word from its fields. -/

namespace Sys2Proof

/-- The bits of an assembled word (R85). -/
theorem getLsbD_cmdWord (op n : BitVec 4) (lane : BitVec 5) (i : Nat) :
    (cmdWord op n lane).getLsbD i =
      if i < 4 then op.getLsbD i else if i < 8 then n.getLsbD (i - 4) else lane.getLsbD (i - 8) := by
  show (0#19 ++ lane ++ n ++ op : BitVec (19 + 5 + 4 + 4)).getLsbD i = _
  simp only [BitVec.getLsbD_append, BitVec.getLsbD_zero]
  split
  · rfl
  · have e : i - 4 - 4 = i - 8 := by omega
    by_cases h8 : i < 8
    · simp [h8, show i - 4 < 4 by omega]
    · by_cases h13 : i - 8 < 5
      · simp [h8, show ¬ i - 4 < 4 by omega, e, h13]
      · simp [h8, show ¬ i - 4 < 4 by omega, e, h13, BitVec.getLsbD_of_ge lane (i - 8) (by omega)]

@[simp] theorem cmdOp_word (op n : BitVec 4) (lane : BitVec 5) : cmdOp (cmdWord op n lane) = op := by
  apply BitVec.eq_of_getLsbD_eq
  intro i hi
  simp [cmdOp, getLsbD_cmdWord, hi]

@[simp] theorem cmdN_word (op n : BitVec 4) (lane : BitVec 5) : cmdN (cmdWord op n lane) = n := by
  apply BitVec.eq_of_getLsbD_eq
  intro i hi
  simp [cmdN, getLsbD_cmdWord, hi, show 4 + i < 8 by omega]

@[simp] theorem cmdLane_word (op n : BitVec 4) (lane : BitVec 5) : cmdLane (cmdWord op n lane) = lane := by
  apply BitVec.eq_of_getLsbD_eq
  intro i hi
  simp [cmdLane, getLsbD_cmdWord, hi, show ¬ 8 + i < 4 by omega]

@[simp] theorem cmdRsv_word (op n : BitVec 4) (lane : BitVec 5) : cmdRsv (cmdWord op n lane) = 0 := by
  apply BitVec.eq_of_getLsbD_eq
  intro i hi
  simp [cmdRsv, BitVec.getLsbD_extractLsb', getLsbD_cmdWord, show ¬ 13 + i < 4 by omega, show ¬ 13 + i < 8 by omega,
    BitVec.getLsbD_of_ge lane (13 + i - 8) (by omega)]

/-- A word whose RSV is 0 is assembled from its fields (R85). -/
theorem cmdWord_fields (cmd : CmdWord) (h : cmdRsv cmd = 0) : cmdWord (cmdOp cmd) (cmdN cmd) (cmdLane cmd) = cmd := by
  apply BitVec.eq_of_getLsbD_eq
  intro i hi
  have hb : 13 ≤ i → cmd.getLsbD i = false := fun h13 => by
    have := congrArg (fun v => v.getLsbD (i - 13)) h
    simpa [cmdRsv, BitVec.getLsbD_extractLsb', show 13 + (i - 13) = i by omega, show i - 13 < 19 by omega] using this
  simp only [getLsbD_cmdWord, cmdOp, cmdN, cmdLane, BitVec.getLsbD_extractLsb']
  split
  · simp [*]
  split
  · simp [show i - 4 < 4 by omega, show 4 + (i - 4) = i by omega]
  by_cases h13 : i < 13
  · simp [show i - 8 < 5 by omega, show 8 + (i - 8) = i by omega]
  · simp [show ¬ i - 8 < 5 by omega, hb (by omega)]

end Sys2Proof
end

