-- ==== Sys2Proof/Laws/State.lean ====
section
/-! SUPPORT. State laws: what each update of the state does to each field. -/

namespace Sys2Proof.Machine

open Sys2Proof

@[simp] theorem reset_A  :
    State.reset.A = Vector.replicate 25 0 := rfl

@[simp] theorem reset_phase  :
    State.reset.phase = .absorb := rfl

@[simp] theorem reset_next  :
    State.reset.next = .absorb := rfl

@[simp] theorem reset_round  :
    State.reset.round = 0 := rfl

@[simp] theorem reset_cursor  :
    State.reset.cursor = 0 := rfl

@[simp] theorem reset_err  :
    State.reset.err = .none := rfl

@[simp] theorem reset_dout  :
    State.reset.dout = 0 := rfl

@[simp] theorem reset_script  :
    State.reset.script = [] := rfl

@[simp] theorem clearRegisters_A (s : State) :
    (clearRegisters s).A = State.reset.A := rfl

@[simp] theorem clearRegisters_phase (s : State) :
    (clearRegisters s).phase = State.reset.phase := rfl

@[simp] theorem clearRegisters_next (s : State) :
    (clearRegisters s).next = State.reset.next := rfl

@[simp] theorem clearRegisters_round (s : State) :
    (clearRegisters s).round = State.reset.round := rfl

@[simp] theorem clearRegisters_cursor (s : State) :
    (clearRegisters s).cursor = State.reset.cursor := rfl

@[simp] theorem clearRegisters_err (s : State) :
    (clearRegisters s).err = State.reset.err := rfl

@[simp] theorem clearRegisters_dout (s : State) :
    (clearRegisters s).dout = State.reset.dout := rfl

@[simp] theorem clearRegisters_script (s : State) :
    (clearRegisters s).script = s.script := rfl

@[simp] theorem enterBusy_A (n : NextPhase) (s : State) :
    (enterBusy n s).A = s.A := rfl

@[simp] theorem enterBusy_phase (n : NextPhase) (s : State) :
    (enterBusy n s).phase = .busy := rfl

@[simp] theorem enterBusy_next (n : NextPhase) (s : State) :
    (enterBusy n s).next = n := rfl

@[simp] theorem enterBusy_round (n : NextPhase) (s : State) :
    (enterBusy n s).round = 0 := rfl

@[simp] theorem enterBusy_cursor (n : NextPhase) (s : State) :
    (enterBusy n s).cursor = s.cursor := rfl

@[simp] theorem enterBusy_err (n : NextPhase) (s : State) :
    (enterBusy n s).err = s.err := rfl

@[simp] theorem enterBusy_dout (n : NextPhase) (s : State) :
    (enterBusy n s).dout = s.dout := rfl

@[simp] theorem enterBusy_script (n : NextPhase) (s : State) :
    (enterBusy n s).script = s.script := rfl

@[simp] theorem presentCommand_A (cmd : CmdWord) (din : Lane) (s : State) :
    (presentCommand cmd din s).A = s.A := rfl

@[simp] theorem presentCommand_phase (cmd : CmdWord) (din : Lane) (s : State) :
    (presentCommand cmd din s).phase = s.phase := rfl

@[simp] theorem presentCommand_next (cmd : CmdWord) (din : Lane) (s : State) :
    (presentCommand cmd din s).next = s.next := rfl

@[simp] theorem presentCommand_round (cmd : CmdWord) (din : Lane) (s : State) :
    (presentCommand cmd din s).round = s.round := rfl

@[simp] theorem presentCommand_cursor (cmd : CmdWord) (din : Lane) (s : State) :
    (presentCommand cmd din s).cursor = s.cursor := rfl

@[simp] theorem presentCommand_err (cmd : CmdWord) (din : Lane) (s : State) :
    (presentCommand cmd din s).err = s.err := rfl

@[simp] theorem presentCommand_dout (cmd : CmdWord) (din : Lane) (s : State) :
    (presentCommand cmd din s).dout = s.dout := rfl

@[simp] theorem presentCommand_script (cmd : CmdWord) (din : Lane) (s : State) :
    (presentCommand cmd din s).script = .issue cmd din :: s.script := rfl

@[simp] theorem raiseCmdError_A (e : ErrCode) (s : State) :
    (raiseCmdError e s).A = s.A := by
  unfold raiseCmdError; split <;> rfl

@[simp] theorem raiseCmdError_phase (e : ErrCode) (s : State) :
    (raiseCmdError e s).phase = s.phase := by
  unfold raiseCmdError; split <;> rfl

@[simp] theorem raiseCmdError_next (e : ErrCode) (s : State) :
    (raiseCmdError e s).next = s.next := by
  unfold raiseCmdError; split <;> rfl

@[simp] theorem raiseCmdError_round (e : ErrCode) (s : State) :
    (raiseCmdError e s).round = s.round := by
  unfold raiseCmdError; split <;> rfl

@[simp] theorem raiseCmdError_cursor (e : ErrCode) (s : State) :
    (raiseCmdError e s).cursor = s.cursor := by
  unfold raiseCmdError; split <;> rfl

@[simp] theorem raiseCmdError_err (e : ErrCode) (s : State) :
    (raiseCmdError e s).err = if s.err = .none then e else s.err := by
  unfold raiseCmdError; split <;> rfl

@[simp] theorem raiseCmdError_dout (e : ErrCode) (s : State) :
    (raiseCmdError e s).dout = s.dout := by
  unfold raiseCmdError; split <;> rfl

@[simp] theorem raiseCmdError_script (e : ErrCode) (s : State) :
    (raiseCmdError e s).script = s.script := by
  unfold raiseCmdError; split <;> rfl

@[simp] theorem advanceHost_A (b : Bool) (s : State) :
    (advanceHost b s).A = s.A := by
  unfold advanceHost; split <;> (try split) <;> rfl

@[simp] theorem advanceHost_phase (b : Bool) (s : State) :
    (advanceHost b s).phase = s.phase := by
  unfold advanceHost; split <;> (try split) <;> rfl

@[simp] theorem advanceHost_next (b : Bool) (s : State) :
    (advanceHost b s).next = s.next := by
  unfold advanceHost; split <;> (try split) <;> rfl

@[simp] theorem advanceHost_round (b : Bool) (s : State) :
    (advanceHost b s).round = s.round := by
  unfold advanceHost; split <;> (try split) <;> rfl

@[simp] theorem advanceHost_cursor (b : Bool) (s : State) :
    (advanceHost b s).cursor = s.cursor := by
  unfold advanceHost; split <;> (try split) <;> rfl

@[simp] theorem advanceHost_err (b : Bool) (s : State) :
    (advanceHost b s).err = s.err := by
  unfold advanceHost; split <;> (try split) <;> rfl

@[simp] theorem advanceHost_dout (b : Bool) (s : State) :
    (advanceHost b s).dout = s.dout := by
  unfold advanceHost; split <;> (try split) <;> rfl

@[simp] theorem engineRound_A (s : State) :
    (engineRound s).A = keccakRound s.A s.round := by
  unfold engineRound; split <;> simp_all

@[simp] theorem engineRound_phase (s : State) :
    (engineRound s).phase = if s.round = 23 then s.next.toPhase else s.phase := by
  unfold engineRound; split <;> simp_all

@[simp] theorem engineRound_next (s : State) :
    (engineRound s).next = s.next := by
  unfold engineRound; split <;> simp_all

@[simp] theorem engineRound_round (s : State) :
    (engineRound s).round = if s.round = 23 then 0 else s.round + 1 := by
  unfold engineRound; split <;> simp_all

@[simp] theorem engineRound_cursor (s : State) :
    (engineRound s).cursor = s.cursor := by
  unfold engineRound; split <;> simp_all

@[simp] theorem engineRound_err (s : State) :
    (engineRound s).err = s.err := by
  unfold engineRound; split <;> simp_all

@[simp] theorem engineRound_dout (s : State) :
    (engineRound s).dout = s.dout := by
  unfold engineRound; split <;> simp_all

@[simp] theorem engineRound_script (s : State) :
    (engineRound s).script = s.script := by
  unfold engineRound; split <;> simp_all

/-- Two states with equal fields are equal. -/
theorem State.ext_fields {s t : State} (hA : s.A = t.A) (hp : s.phase = t.phase) (hn : s.next = t.next)
    (hr : s.round = t.round) (hc : s.cursor = t.cursor) (he : s.err = t.err) (hd : s.dout = t.dout)
    (hs : s.script = t.script) : s = t := by
  cases s; cases t; simp_all

/-! The input ports follow from the host's next move. -/

theorem port_of_nil {s : State} (h : s.script = []) : s.port = .idle := by simp [State.port, h]

theorem port_of_cons {s : State} {m : HostMove} {rest : List HostMove} (h : s.script = m :: rest) :
    s.port = m.port := by simp [State.port, h]

/-- The ports depend on the host's moves only. -/
theorem port_congr {s t : State} (h : s.script = t.script) : s.port = t.port := by simp [State.port, h]

@[simp] theorem enterBusy_port (n : NextPhase) (s : State) : (enterBusy n s).port = s.port := rfl

@[simp] theorem engineRound_port (s : State) : (engineRound s).port = s.port := port_congr (by simp)

@[simp] theorem raiseCmdError_port (e : ErrCode) (s : State) : (raiseCmdError e s).port = s.port :=
  port_congr (by simp)

/-! How the host moves on. -/

theorem advanceHost_script_nil {b : Bool} {s : State} (h : s.script = []) : (advanceHost b s).script = [] := by
  simp [advanceHost, h]

theorem advanceHost_script_drive {b : Bool} {s : State} {p : PortIn} {rest : List HostMove}
    (h : s.script = .drive p :: rest) : (advanceHost b s).script = rest := by simp [advanceHost, h]

theorem advanceHost_script_issue {b : Bool} {s : State} {cmd : CmdWord} {din : Lane} {rest : List HostMove}
    (h : s.script = .issue cmd din :: rest) :
    (advanceHost b s).script = if b then rest else s.script := by
  cases b <;> simp [advanceHost, h]

theorem advanceHost_script_waitDone {b : Bool} {s : State} {rest : List HostMove} (h : s.script = .waitDone :: rest) :
    (advanceHost b s).script = if s.phase = .squeeze then rest else s.script := by
  by_cases hp : s.phase = .squeeze <;> simp [advanceHost, h, hp, State.digestValid]

end Sys2Proof.Machine
end

