-- ==== Sys2Proof/Laws/Ops.lean ====
section
/-! SUPPORT. Operation laws: what accepting a command can do, once for all commands, and when the checks pass. -/

namespace Sys2Proof.Machine

open Sys2Proof

/-- A held command changes nothing. -/
theorem accept_busy {i : Instr} {s e : State} (h : s.phase = .busy) : accept i s e = .next s := by
  simp [accept, h]

/-- A command whose checks pass has its effect. -/
theorem accept_ok {i : Instr} {s e : State} (h : s.phase ≠ .busy) (hc : checkInstr i s = .none) :
    accept i s e = .next e := by
  simp [accept, h, hc]

/-- A command whose checks fail records its error. -/
theorem accept_error {i : Instr} {s e : State} (h : s.phase ≠ .busy) (hc : checkInstr i s ≠ .none) :
    accept i s e = .next (raiseCmdError (checkInstr i s) s) := by
  simp [accept, h, hc]

/-- All that accepting a command can do. -/
theorem accept_cases {i : Instr} {s e t : State} (h : accept i s e = .next t) :
    (s.phase = .busy ∧ t = s) ∨
    (s.phase ≠ .busy ∧ checkInstr i s = .none ∧ t = e) ∨
    (s.phase ≠ .busy ∧ checkInstr i s ≠ .none ∧ t = raiseCmdError (checkInstr i s) s) := by
  by_cases hb : s.phase = .busy
  · rw [accept_busy hb] at h; cases h; exact .inl ⟨hb, rfl⟩
  · by_cases hc : checkInstr i s = .none
    · rw [accept_ok hb hc] at h; cases h; exact .inr (.inl ⟨hb, hc, rfl⟩)
    · rw [accept_error hb hc] at h; cases h; exact .inr (.inr ⟨hb, hc, rfl⟩)

/-- Accepting a command always answers a next state. -/
theorem accept_next (i : Instr) (s e : State) : ∃ t, accept i s e = .next t := by
  by_cases hb : s.phase = .busy
  · exact ⟨s, accept_busy hb⟩
  · by_cases hc : checkInstr i s = .none
    · exact ⟨e, accept_ok hb hc⟩
    · exact ⟨_, accept_error hb hc⟩

@[simp] theorem checkInstr_nop (s : State) : checkInstr .nop s = .none := rfl

@[simp] theorem checkInstr_init (s : State) : checkInstr .init s = .none := rfl

theorem checkInstr_read (lane : BitVec 5) (s : State) :
    checkInstr (.read lane) s = if lane.toNat < 25 then .none else .illegal := by
  by_cases h : lane.toNat < 25 <;> simp [checkInstr, Instr.wf, absorbOnly, overruns, h]

theorem checkInstr_final (s : State) : checkInstr .final s = if s.phase = .absorb then .none else .phase := by
  by_cases h : s.phase = .absorb <;> simp [checkInstr, Instr.wf, absorbOnly, overruns, h]

theorem checkInstr_permute (s : State) : checkInstr .permute s = if s.phase = .absorb then .none else .phase := by
  by_cases h : s.phase = .absorb <;> simp [checkInstr, Instr.wf, absorbOnly, overruns, h]

theorem checkInstr_absorb (n : BitVec 4) (din : Lane) (s : State) :
    checkInstr (.absorb n din) s =
      if ¬ (1 ≤ n.toNat ∧ n.toNat ≤ 8) then .illegal
      else if s.phase ≠ .absorb then .phase
      else if s.cursor.val + n.toNat > 136 then .overrun
      else .none := by
  by_cases hn : 1 ≤ n.toNat ∧ n.toNat ≤ 8
  · simp [checkInstr, Instr.wf, absorbOnly, overruns, hn.1, hn.2]
  · have : (decide (1 ≤ n.toNat) && decide (n.toNat ≤ 8)) = false := by
      simp only [Bool.and_eq_false_iff, decide_eq_false_iff_not]
      rcases Nat.lt_or_ge n.toNat 1 with h | h
      · left; omega
      · right; intro h8; exact hn ⟨h, h8⟩
    simp [checkInstr, Instr.wf, this, hn]

/-- The checks read the phase and the cursor only. -/
theorem checkInstr_congr (i : Instr) {s t : State} (hp : s.phase = t.phase) (hc : s.cursor = t.cursor) :
    checkInstr i s = checkInstr i t := by
  cases i <;> simp [checkInstr, absorbOnly, overruns, hp, hc]

/-- Every command's effect where its checks pass: the shared part of all meanings. -/
def effectOf (i : Instr) (s : State) : State :=
  match i with
  | .nop => s
  | .init => clearRegisters s
  | .absorb n din => absorbEffect n din s
  | .final => enterBusy .squeeze { s with A := padLanes s, cursor := 0 }
  | .permute => enterBusy .absorb s
  | .read lane => { s with dout := selectLane s.A lane }

/-- Every meaning is its effect under the shared acceptance. -/
theorem exec_eq_accept (i : Instr) (s : State) : exec i s = accept i s (effectOf i s) := by cases i <;> rfl

/-- All that a command can do. -/
theorem exec_cases {i : Instr} {s t : State} (h : exec i s = .next t) :
    (s.phase = .busy ∧ t = s) ∨
    (s.phase ≠ .busy ∧ checkInstr i s = .none ∧ t = effectOf i s) ∨
    (s.phase ≠ .busy ∧ checkInstr i s ≠ .none ∧ t = raiseCmdError (checkInstr i s) s) :=
  accept_cases (exec_eq_accept i s ▸ h)

/-- A command always answers a next state: the block never traps (R200). -/
theorem exec_next (i : Instr) (s : State) : ∃ t, exec i s = .next t := exec_eq_accept i s ▸ accept_next i s _

/-- A command whose checks pass has its effect. -/
theorem exec_ok {i : Instr} {s : State} (h : s.phase ≠ .busy) (hc : checkInstr i s = .none) :
    exec i s = .next (effectOf i s) := exec_eq_accept i s ▸ accept_ok h hc

/-- A command whose checks fail records its error. -/
theorem exec_error {i : Instr} {s : State} (h : s.phase ≠ .busy) (hc : checkInstr i s ≠ .none) :
    exec i s = .next (raiseCmdError (checkInstr i s) s) := exec_eq_accept i s ▸ accept_error h hc

/-- No command touches the host's moves. -/
@[simp] theorem effectOf_script (i : Instr) (s : State) : (effectOf i s).script = s.script := by
  cases i <;> simp [effectOf, absorbEffect]
  split <;> rfl

/-- ABSORB below the end of the block: the cursor advances. -/
theorem absorbEffect_partial {n : BitVec 4} {din : Lane} {s : State} (h : s.cursor.val + n.toNat < 136) :
    absorbEffect n din s = { s with A := absorbLanes n din s, cursor := ⟨s.cursor.val + n.toNat, h⟩ } := by
  simp [absorbEffect, h]

/-- ABSORB that fills the block: the engine starts. -/
theorem absorbEffect_full {n : BitVec 4} {din : Lane} {s : State} (h : s.cursor.val + n.toNat = 136) :
    absorbEffect n din s = enterBusy .absorb { s with A := absorbLanes n din s, cursor := 0 } := by
  simp [absorbEffect, h]

end Sys2Proof.Machine
end

