-- ==== Sys2Proof/Laws/PerInstr.lean ====
section
/-! SUPPORT. Per-instruction laws: a property of each command as syntax, one lemma per constructor. -/

namespace Sys2Proof.Laws.EncodedWordIsLegal

open Sys2Proof

/-- The word the assembler gives a well-formed command is no `IllegalFormat` word (R89, R97). -/
def Statement (i : Instr) : Prop := i.wf = true → illegalFormat (encodeCmd i) = false

theorem nop : Statement .nop := fun _ => by decide

theorem init : Statement .init := fun _ => by decide

theorem absorb (n : BitVec 4) (din : Lane) : Statement (.absorb n din) := by
  have h : ∀ n : BitVec 4, (decide (1 ≤ n.toNat) && decide (n.toNat ≤ 8)) = true →
      illegalFormat (cmdWord 2 n 0) = false := by decide
  exact h n

theorem final : Statement .final := fun _ => by decide

theorem permute : Statement .permute := fun _ => by decide

theorem read (lane : BitVec 5) : Statement (.read lane) := by
  have h : ∀ lane : BitVec 5, decide (lane.toNat < 25) = true → illegalFormat (cmdWord 5 0 lane) = false := by decide
  exact h lane

end Sys2Proof.Laws.EncodedWordIsLegal
end

