-- ==== Sys2Proof/Laws/Step.lean ====
section
/-! SUPPORT. Step laws: the cases of one clock edge, and the engine's edges in sequence. -/

namespace Sys2Proof.Machine

open Sys2Proof

/-- The reset edge. -/
theorem step_reset {s : State} (h : s.port.rst = true) : step s = .next (advanceHost false (clearRegisters s)) := by
  simp [step, clockEdge, h]

theorem legal_of_busy {s : State} (h : s.phase = .busy) : s.legal = true := by simp [State.legal, h]

/-- The engine's edge. -/
theorem step_busy {s : State} (hr : s.port.rst = false) (h : s.phase = .busy) :
    step s = .next (advanceHost false (engineRound s)) := by
  simp [step, clockEdge, hr, h, legal_of_busy h]

/-- The idle edge. -/
theorem step_idle {s : State} (hr : s.port.rst = false) (hl : s.legal = true) (h : s.phase ≠ .busy)
    (hv : s.port.cmdValid = false) : step s = .next (advanceHost false s) := by
  simp [step, clockEdge, hr, h, hl, hv]

/-- The edge that accepts a command. -/
theorem step_accept {s : State} (hr : s.port.rst = false) (hl : s.legal = true) (h : s.phase ≠ .busy)
    (hv : s.port.cmdValid = true) :
    step s = mapNext (advanceHost true) (execute s.port.cmd s.port.din s) := by
  simp [step, clockEdge, hr, h, hl, hv]

/-- A presented word always answers a next state. -/
theorem execute_next (cmd : CmdWord) (din : Lane) (s : State) : ∃ t, execute cmd din s = .next t := by
  unfold execute
  split
  · exact exec_next _ s
  · exact ⟨_, rfl⟩

/-- All that a presented word can do: its command, or the ILLEGAL error. -/
theorem execute_cases {cmd : CmdWord} {din : Lane} {s t : State} (h : execute cmd din s = .next t) :
    (∃ i, decode cmd din = .ok i ∧ exec i s = .next t) ∨
    ((∃ e, decode cmd din = .error e) ∧ t = raiseCmdError .illegal s) := by
  unfold execute at h
  split at h
  · next i hd => exact .inl ⟨i, hd, h⟩
  · next e hd => cases h; exact .inr ⟨⟨e, hd⟩, rfl⟩

theorem mapNext_eq_next {f : State → State} {o : Host.Outcome State Fault Refusal} {t : State}
    (h : mapNext f o = .next t) : ∃ u, o = .next u ∧ t = f u := by
  cases o with
  | next u => cases h; exact ⟨u, rfl, rfl⟩
  | fault r => cases h
  | refused r => cases h

/-- All that an edge can do (R82): reset, an engine round, an accepted command, an accepted illegal word, or nothing. -/
theorem step_cases {s t : State} (h : step s = .next t) :
    (s.port.rst = true ∧ t = advanceHost false (clearRegisters s)) ∨
    (s.port.rst = false ∧ s.phase = .busy ∧ t = advanceHost false (engineRound s)) ∨
    (s.port.rst = false ∧ s.phase ≠ .busy ∧ s.legal = true ∧ s.port.cmdValid = true ∧
      ∃ i u, decode s.port.cmd s.port.din = .ok i ∧ exec i s = .next u ∧ t = advanceHost true u) ∨
    (s.port.rst = false ∧ s.phase ≠ .busy ∧ s.legal = true ∧ s.port.cmdValid = true ∧
      (∃ e, decode s.port.cmd s.port.din = .error e) ∧ t = advanceHost true (raiseCmdError .illegal s)) ∨
    (s.port.rst = false ∧ s.phase ≠ .busy ∧ s.legal = true ∧ s.port.cmdValid = false ∧ t = advanceHost false s) := by
  cases hr : s.port.rst with
  | true => rw [step_reset hr] at h; cases h; exact .inl ⟨rfl, rfl⟩
  | false =>
    right
    by_cases hb : s.phase = .busy
    · rw [step_busy hr hb] at h; cases h; exact .inl ⟨rfl, hb, rfl⟩
    right
    cases hl : s.legal with
    | false => simp [step, clockEdge, hr, hl] at h
    | true =>
      cases hv : s.port.cmdValid with
      | false => rw [step_idle hr hl hb hv] at h; cases h; exact .inr (.inr ⟨rfl, hb, rfl, rfl, rfl⟩)
      | true =>
        rw [step_accept hr hl hb hv] at h
        obtain ⟨u, hu, rfl⟩ := mapNext_eq_next h
        rcases execute_cases hu with ⟨i, hd, he⟩ | ⟨hd, rfl⟩
        · exact .inl ⟨rfl, hb, rfl, rfl, i, u, hd, he, rfl⟩
        · exact .inr (.inl ⟨rfl, hb, rfl, rfl, hd, rfl⟩)

/-- `edges` is the host's run of this machine. -/
theorem edges_eq_run (n : Nat) (s : State) : edges n s = core.run n s := by
  induction n generalizing s with
  | zero => rfl
  | succ n ih =>
    have hstep : core.step s = step s := rfl
    cases h : step s <;> simp [edges, Host.Core.run, hstep, h, ih] <;> rfl

theorem edges_zero (s : State) : edges 0 s = .next s := rfl

/-- One edge and then k more. -/
theorem edges_succ {k : Nat} {s t : State} (h : step s = .next t) : edges (k + 1) s = edges k t := by
  simp [edges, h]

/-- j edges and then k more. -/
theorem edges_add {j k : Nat} {s t : State} (h : edges j s = .next t) : edges (j + k) s = edges k t := by
  induction j generalizing s with
  | zero => cases h; rw [Nat.zero_add]
  | succ j ih =>
    rw [Nat.add_right_comm]
    cases hu : step s with
    | next u =>
      rw [edges_succ hu] at h ⊢
      exact ih h
    | fault r => simp [edges, hu] at h
    | refused r => simp [edges, hu] at h

/-- k edges and then one more. -/
theorem edges_snoc {k : Nat} {s t u : State} (h : edges k s = .next t) (hu : step t = .next u) :
    edges (k + 1) s = .next u := by
  rw [edges_add h, edges_succ hu]; rfl

/-- No command touches the host's moves. -/
theorem exec_script {i : Instr} {s t : State} (h : exec i s = .next t) : t.script = s.script := by
  rcases exec_cases h with ⟨_, rfl⟩ | ⟨_, _, rfl⟩ | ⟨_, _, rfl⟩ <;> simp

/-- A host with no move left has none after an edge. -/
theorem step_script_nil {s t : State} (hs : s.script = []) (h : step s = .next t) : t.script = [] := by
  have adv : ∀ (b : Bool) (u : State), u.script = [] → (advanceHost b u).script = [] := fun b u hu => by
    simp [advanceHost, hu]
  rcases step_cases h with ⟨_, rfl⟩ | ⟨_, _, rfl⟩ | ⟨_, _, _, _, i, u, _, hx, rfl⟩ | ⟨_, _, _, _, _, rfl⟩ | ⟨_, _, _, _, rfl⟩
  · exact adv _ _ (by simpa using hs)
  · exact adv _ _ (by simpa using hs)
  · exact adv _ _ ((exec_script hx).trans hs)
  · exact adv _ _ (by simpa using hs)
  · exact adv _ _ hs

/-- A host with no move left keeps `rst` low. -/
theorem rstLow_of_script_nil {s : State} (hs : s.script = []) (n : Nat) : s.RstLow n := by
  intro j _ u hu
  have hnil : u.script = [] := by
    clear * - hs hu
    induction j generalizing s with
    | zero => cases hu; exact hs
    | succ j ih =>
      cases h : step s with
      | next t => rw [edges_succ h] at hu; exact ih (step_script_nil hs h) hu
      | fault r => simp [edges, h] at hu
      | refused r => simp [edges, h] at hu
  simp [State.port, hnil, PortIn.idle]

end Sys2Proof.Machine
end

