-- ==== Sys2Proof/Tests/Slice0.lean ====
section
/-! SUPPORT. Tests: the smoke test of WellFormed, decoding by words written from the encoding tables, one-edge tests
from spec/95_test_vectors.md, and a witness for the hypotheses of every obligation that has some. -/

namespace Sys2Proof.Tests

open Sys2Proof Sys2Proof.Machine

/-! ## Helpers -/

/-- The next state, where there is one. -/
def nextOf : Host.Outcome State Fault Refusal → Option State
  | .next s => some s
  | .fault _ => none
  | .refused _ => none

/-- The registers after reset with the cursor at c. -/
def atCursor (c : Fin 136) : State := { State.reset with cursor := c }

/-- BUSY with round r to perform, to go on to `next`. -/
def inBusy (r : Fin 24) (next : NextPhase) : State := { State.reset with phase := .busy, round := r, next := next }

/-- SQUEEZE with the given error recorded and a lane of each kind nonzero. -/
def inSqueeze (e : ErrCode) : State :=
  { State.reset with A := (State.reset.A.set 0 5).set 24 7, phase := .squeeze, next := .squeeze, err := e, dout := 9 }

/-- s with a host that issues one word. -/
def presenting (cmd : CmdWord) (din : Lane) (s : State) : State := { s with script := [.issue cmd din] }

/-- s with a host that drives the ports for one edge. -/
def driven (port : PortIn) (s : State) : State := { s with script := [.drive port] }

/-- The ports at a reset edge with a command presented. -/
def resetPort : PortIn := { rst := true, cmdValid := true, cmd := 0x4, din := 1 }

/-- The all-zero lanes with lane i set. -/
def oneLane (i : Fin 25) (v : Lane) : Lanes := zeroLanes.set i v

/-! ## Well-formedness -/

theorem test_wf_absorb_zero_bytes : (Instr.absorb 0 0).wf = false := by decide
theorem test_wf_absorb_nine_bytes : (Instr.absorb 9 0).wf = false := by decide
theorem test_wf_read_lane_25 : (Instr.read 25).wf = false := by decide
theorem test_wf_extremes :
    (Instr.absorb 1 0).wf = true ∧ (Instr.absorb 8 0).wf = true ∧ (Instr.read 0).wf = true ∧ (Instr.read 24).wf = true ∧
    Instr.nop.wf = true ∧ Instr.init.wf = true ∧ Instr.final.wf = true ∧ Instr.permute.wf = true := by decide

/-! ## Decoding: words bit by bit from R85 and R88 (RSV, LANE, N, OP) -/

theorem test_decode_nop : decodeTableWord 32 0b0000000000000000000_00000_0000_0000 = some .nop := by decide
theorem test_decode_init : decodeTableWord 32 0b0000000000000000000_00000_0000_0001 = some .init := by decide
theorem test_decode_absorb : decodeTableWord 32 0b0000000000000000000_00000_0011_0010 = some (.absorb 3 0) := by decide
theorem test_decode_absorb_eight : decodeTableWord 32 0b0000000000000000000_00000_1000_0010 = some (.absorb 8 0) := by
  decide
theorem test_decode_final : decodeTableWord 32 0b0000000000000000000_00000_0000_0011 = some .final := by decide
theorem test_decode_permute : decodeTableWord 32 0b0000000000000000000_00000_0000_0100 = some .permute := by decide
theorem test_decode_read : decodeTableWord 32 0b0000000000000000000_11000_0000_0101 = some (.read 24) := by decide
theorem test_decode_din : decodeTableWord 96 0x0000000000636261_00000032 = some (.absorb 3 0x636261) := by decide

/-- The illegal words of spec/95 section 2.12. -/
theorem test_decode_illegal :
    [0x00000002, 0x00000092, 0x000000f2, 0x00000182, 0x00001905, 0x00001f05, 0x00000006, 0x0000000f, 0x00002005,
      0xffffffff, 0x00000010, 0x80000001, 0x00000013, 0x00000104, 0x00000015].all
        (fun w => decodeTableWord 32 w == none) = true := by decide

/-- R97's examples as text and as words. -/
theorem test_assembly :
    encode (.absorb 3 0x636261) = (0x00000032, 0x636261) ∧ encode (.read 3) = (0x00000305, 0) ∧
    assemblyLine (.read 3) = "READ 3" := by decide

/-! ## The commands, one edge each (spec/95 sections 2.7 to 2.11) -/

theorem test_nop_in_squeeze : nextOf (exec .nop (inSqueeze .illegal)) = some (inSqueeze .illegal) := by decide
theorem test_nop_with_field_is_illegal :
    (nextOf (step (presenting 0x00000010 0 State.reset))).map (fun t => (t.err, t.script)) = some (.illegal, []) := by
  decide
theorem test_init_from_squeeze : nextOf (exec .init (inSqueeze .illegal)) = some State.reset := by decide
theorem test_init_with_rsv_is_illegal :
    nextOf (execute 0x80000001 0 (inSqueeze .none)) = some (inSqueeze .illegal) := by decide
theorem test_absorb_straddles_lanes :
    (nextOf (exec (.absorb 4 0xffffffff0d0c0b0a) { atCursor 6 with A := oneLane 0 0x0000060504030201 })).map
      (fun t => (t.A[0], t.A[1], t.A[2], t.cursor, t.status))
      = some (0x0b0a060504030201, 0x0000000000000d0c, 0, 10, 0x00000a04) := by decide
theorem test_absorb_at_132 :
    (nextOf (exec (.absorb 8 0xff) (atCursor 132))).map (fun t => (t.err, t.cursor, t.status))
      = some (.overrun, 132, 0x00008434) ∧
    (nextOf (exec (.absorb 4 0) (atCursor 132))).map (fun t => (t.err, t.cursor, t.status))
      = some (.none, 0, 0x00000001) := by decide
theorem test_final_after_abc :
    (nextOf (exec .final { atCursor 3 with A := oneLane 0 0x636261 })).map
      (fun t => (t.A[0], t.A[16], t.A[1], t.cursor, t.next, t.status))
      = some (0x0000000001636261, 0x8000000000000000, 0, 0, .squeeze, 0x00000001) := by decide
theorem test_final_at_135 :
    (nextOf (exec .final (atCursor 135))).map (fun t => (t.A[0], t.A[16])) = some (0, 0x8100000000000000) := by decide
theorem test_permute_keeps_cursor :
    (nextOf (exec .permute (atCursor 5))).map (fun t => (t.phase, t.next, t.round, t.cursor))
      = some (.busy, .absorb, 0, 5) := by decide
theorem test_permute_in_squeeze :
    (nextOf (exec .permute (inSqueeze .none))).map (fun t => (t.err, t.phase)) = some (.phase, .squeeze) := by decide
theorem test_read_24 : (nextOf (exec (.read 24) (inSqueeze .none))).map (fun t => t.dout) = some 7 := by decide
theorem test_read_25_is_illegal :
    nextOf (execute 0x00001905 0 (inSqueeze .none)) = some (inSqueeze .illegal) := by decide

/-- The priority of R208: ABSORB with N = 9 in SQUEEZE is ILLEGAL, with N = 1 PHASE; and the first error is kept. -/
theorem test_error_priority :
    (nextOf (execute 0x00000092 0 (inSqueeze .none))).map (fun t => t.err) = some .illegal ∧
    (nextOf (execute 0x00000012 0 (inSqueeze .none))).map (fun t => t.err) = some .phase ∧
    (nextOf (execute 0x00000012 0 (inSqueeze .illegal))).map (fun t => t.err) = some .illegal := by decide

/-! ## The clock edge -/

/-- spec/95 section 2.8, first row, as the first edge after reset. -/
theorem test_first_word_runs :
    (nextOf (step (State.reset.withFetchWord 96 0x0000000000636261_00000032))).map
      (fun t => (t.A[0], t.cursor, t.status, t.script)) = some (0x0000000000636261, 3, 0x00000304, []) := by decide
/-- spec/95 section 2.13: after reset, and while `rst` stays 1. -/
theorem test_status_after_reset :
    State.reset.status = 0x00000004 ∧ (driven resetPort State.reset).status = 0x00000000 := by decide
/-- spec/95 section 2.11: the status word in BUSY. -/
theorem test_status_in_busy : (inBusy 5 .squeeze).status = 0x00050001 := by decide
/-- spec/95 section 2.11, last row: round 23 and then SQUEEZE. -/
theorem test_last_round :
    (nextOf (step (inBusy 23 .squeeze))).map (fun t => (t.phase, t.round, t.A[0]))
      = some (.squeeze, 0, 0x8000000080008008) := by decide
/-- R84: a command presented in BUSY waits. -/
theorem test_busy_holds_the_command :
    (nextOf (step (presenting 0x00000005 0 (inBusy 0 .absorb)))).map (fun t => (t.script, t.dout, t.round))
      = some ([.issue 0x00000005 0], 0, 1) := by decide
/-- R230: reset beats the command and the engine. -/
theorem test_reset_edge : nextOf (step (driven resetPort (inBusy 10 .squeeze))) = some State.reset := by decide

/-! ## The step mappings (spec/95 sections 2.1 to 2.6 and 1.1) -/

theorem test_theta_one_bit :
    (theta (oneLane 0 0x8000000000000000)).toList =
      [0x8000000000000000, 0x8000000000000000, 0, 0, 1, 0, 0x8000000000000000, 0, 0, 1, 0, 0x8000000000000000, 0, 0, 1,
       0, 0x8000000000000000, 0, 0, 1, 0, 0x8000000000000000, 0, 0, 1] := by decide
theorem test_rho_wraps :
    (rho (Vector.replicate 25 0x8000000000000000))[1] = 1 ∧
    (rho (Vector.replicate 25 0x8000000000000000))[21] = 2 ∧
    (rho (Vector.replicate 25 0x8000000000000000))[24] = 0x2000 ∧
    (rho (Vector.replicate 25 1))[8] = 0x0080000000000000 := by decide
theorem test_pi_moves_lane_six : pi (oneLane 6 0xdeadbeef) = oneLane 1 0xdeadbeef := by decide
theorem test_chi_row :
    ((chi (((((oneLane 0 0xf0f0f0f0f0f0f0f0).set 1 0xff00ff00ff00ff00).set 2 0xffff0000ffff0000).set 3
      0xffffffff00000000).set 4 0x0123456789abcdef)).toList.take 6) =
      [0xf00ff0f0f00ff0f0, 0xff0000ffff00ff00, 0xffff00007654cdef, 0x0f2f4f6f70503010, 0x0e234a6786abc2ef, 0] := by decide
theorem test_iota : iota zeroLanes 23 = oneLane 0 0x8000000080008008 := by decide
theorem test_two_rounds :
    (keccakRound (keccakRound zeroLanes 0) 1).toList =
      [0x0000000000008083, 0x0000100000000000, 0x0000000000008000, 0x0000000000000001, 0x0000100000008000,
       0, 0x0000200000200000, 0, 0x0000200000000000, 0x0000000000200000,
       0x0000000000000002, 0x0000000000000200, 0, 0x0000000000000202, 0,
       0x0000000010000400, 0, 0x0000000000000400, 0x0000000010000000, 0,
       0x0000010000000000, 0, 0x0000010000000004, 0, 0x0000000000000004] := by decide

/-- The source's digest of "abc" (spec/95 section 1.1): the reference function itself, whose padding and tables no
one-edge test reaches together. -/
theorem test_keccak256_abc :
    keccak256 [0x61, 0x62, 0x63] =
      [0x4e, 0x03, 0x65, 0x7a, 0xea, 0x45, 0xa9, 0x4f, 0xc7, 0xd4, 0x7b, 0xa8, 0x26, 0xc8, 0xd6, 0x67,
       0xc0, 0xd1, 0xe6, 0xe3, 0x3a, 0x64, 0xa0, 0x36, 0xec, 0x44, 0xf5, 0x8f, 0xa1, 0x2d, 0x6c, 0x45] := by
  decide +kernel

/-! ## Witnesses: for each obligation with hypotheses, states and operands that meet them, clause by clause -/

/-- A stop-free outcome with a decidable property of its state. -/
theorem exists_next {o : Host.Outcome State Fault Refusal} {p : State → Prop} [DecidablePred p]
    (h : (nextOf o).any (fun t => decide (p t)) = true) : ∃ t, o = .next t ∧ p t := by
  cases o with
  | next t => exact ⟨t, rfl, by simpa [nextOf] using h⟩
  | fault r => simp [nextOf] at h
  | refused r => simp [nextOf] at h

/-- 128 zero bytes absorbed: the next 8 bytes fill the block. -/
def absorbed128 : State :=
  { State.reset with A := spongeState (List.replicate 128 0), cursor := 128 }

theorem witness_DecodeOfEncode :
    (Instr.absorb 1 0).wf = true ∧ (Instr.absorb 8 (BitVec.allOnes 64)).wf = true ∧ (Instr.read 24).wf = true ∧
    Instr.nop.wf = true ∧ Instr.init.wf = true ∧ Instr.final.wf = true ∧ Instr.permute.wf = true := by decide

theorem witness_EncodeOfDecode :
    decode 0x00000082 5 = .ok (.absorb 8 5) ∧ decode 0x00001805 5 = .ok (.read 24) := ⟨rfl, rfl⟩

/-- Both sides of the equivalence occur: 0x92 is illegal and 0x82 is not. -/
theorem witness_IllegalFormatRaisesIllegalExactly :
    State.reset.phase ≠ .busy ∧ State.reset.err = .none ∧ (inSqueeze .none).phase ≠ .busy ∧ (inSqueeze .none).err = .none ∧
    (∃ t, execute 0x00000092 0 State.reset = .next t ∧ t.err = .illegal) ∧
    (∃ t, execute 0x00000082 0 State.reset = .next t ∧ t.err ≠ .illegal) :=
  ⟨by decide, by decide, by decide, by decide, exists_next (by decide), exists_next (by decide)⟩

theorem witness_ReservedOpOnlyRecordsIllegal :
    let s := presenting 0xffffffff 0 (inSqueeze .none)
    s.legal = true ∧ s.cmdReady = true ∧ s.port.cmdValid = true ∧ (s.port.cmd.extractLsb' 0 4).toNat ≥ 6 := by decide

/-- Each outcome of the checks, and a word for each command. -/
theorem witness_ExecuteChecksThenDispatches :
    State.reset.phase ≠ .busy ∧ checkCmd 0x00001905 State.reset = .illegal ∧
    checkCmd 0x00000003 (inSqueeze .none) = .phase ∧ checkCmd 0x00000022 (atCursor 135) = .overrun ∧
    [0x00000000, 0x00000001, 0x00000012, 0x00000003, 0x00000004, 0x00000005].all
      (fun w => decide (checkCmd w (atCursor 135) = .none)) = true := by decide

theorem witness_FirstErrorIsKept :
    (inSqueeze .none).phase ≠ .busy ∧ checkCmd 0x00000003 (inSqueeze .none) ≠ .none ∧ (inSqueeze .none).err = .none ∧
    (inSqueeze .overrun).phase ≠ .busy ∧ checkCmd 0x00000003 (inSqueeze .overrun) ≠ .none ∧
    (inSqueeze .overrun).err ≠ .none := by decide

theorem witness_ErrClearedOnlyByInitOrReset :
    ((inSqueeze .illegal).err ≠ .none ∧
      (∃ t, step (presenting 0x00000001 0 (inSqueeze .illegal)) = .next t ∧ t.err ≠ .illegal) ∧
      (∃ t, step (driven resetPort (inSqueeze .illegal)) = .next t ∧ t.err ≠ .illegal)) ∧
    (driven resetPort (inSqueeze .illegal)).port.rst = true ∧
    (let s := presenting 0x00000001 0 (inSqueeze .illegal)
     s.legal = true ∧ s.accepts = true ∧ decode s.port.cmd s.port.din = .ok .init) ∧
    ((atCursor 128).phase ≠ .busy ∧ checkInstr (.absorb 8 1) (atCursor 128) = .none ∧
      checkInstr .init (atCursor 128) = .none) :=
  ⟨⟨by decide, exists_next (by decide), exists_next (by decide)⟩, by decide, ⟨by decide, by decide, rfl⟩, by decide⟩

theorem witness_PhaseTable :
    (inBusy 3 .absorb).phase = .busy ∧ State.reset.phase ≠ .busy ∧ (24#5).toNat ≤ 24 ∧
    (inSqueeze .none).phase = .squeeze ∧ (Instr.absorb 8 0).wf = true ∧ (atCursor 128).phase = .absorb ∧
    (atCursor 128).cursor.val + (8#4).toNat ≤ 136 ∧ (atCursor 129).cursor.val + (8#4).toNat > 136 := by decide

theorem witness_OverrunWritesNothing :
    (atCursor 135).phase = .absorb ∧ (Instr.absorb 2 0).wf = true ∧ (atCursor 135).cursor.val + (2#4).toNat > 136 := by
  decide

theorem witness_CommandSampledOnlyWhenAccepted :
    (inBusy 0 .absorb).phase = .busy ∧ PortIn.idle.rst = false ∧ PortIn.idle.cmdValid = false ∧ resetPort.rst = true ∧
    (presenting 0x00000005 0 State.reset).legal = true ∧ (presenting 0x00000005 0 State.reset).accepts = true := by decide

theorem witness_NopChangesNothing :
    (inSqueeze .illegal).phase ≠ .busy ∧ (inSqueeze .illegal).legal = true ∧
    (0x80000000#32).extractLsb' 0 4 = 0 ∧ (0x80000000#32).extractLsb' 4 28 ≠ 0 := by decide

theorem witness_InitClearsEveryRegister :
    (inSqueeze .illegal).phase ≠ .busy ∧ (0x80000001#32).extractLsb' 0 4 = 1 ∧
    (0x80000001#32).extractLsb' 4 28 ≠ 0 := by decide

theorem witness_AbsorbXorsItsBytes :
    ((atCursor 128).phase = .absorb ∧ 1 ≤ (8#4).toNat ∧ (8#4).toNat ≤ 8 ∧ (atCursor 128).cursor.val + (8#4).toNat = 136 ∧
      (atCursor 127).cursor.val + (8#4).toNat < 136) ∧
    ((0x00000002#32).extractLsb' 0 4 = 2 ∧ ((0x00000002#32).extractLsb' 4 4).toNat = 0 ∧
      (0x00000092#32).extractLsb' 0 4 = 2 ∧ ((0x00000092#32).extractLsb' 4 4).toNat > 8 ∧
      (0x00000182#32).extractLsb' 0 4 = 2 ∧ (0x00000182#32).extractLsb' 8 24 ≠ 0) ∧
    ((inSqueeze .none).phase = .squeeze ∧ (atCursor 129).phase = .absorb ∧
      (atCursor 129).cursor.val + (8#4).toNat > 136) := by decide

theorem witness_AlignedAbsorbXorsOneLane :
    (atCursor 128).phase = .absorb ∧ (atCursor 128).cursor.val = 8 * (16 : Fin 17).val := by decide

theorem witness_UnusedDinBitsAreIgnored :
    (∀ z, z < 8 * (2#4).toNat → (0xffffffffffff2211#64).getLsbD z = (0x2211#64).getLsbD z) ∧
    (0x00000003#32).extractLsb' 0 4 ≠ 2 := by decide

theorem witness_FinalPadsAndStartsTheEngine :
    (atCursor 135).phase = .absorb ∧ State.reset.phase = .absorb ∧ (0x00000013#32).extractLsb' 0 4 = 3 ∧
    (0x00000013#32).extractLsb' 4 28 ≠ 0 ∧ (inSqueeze .none).phase = .squeeze := by decide

theorem witness_ReadCopiesTheLane :
    (inSqueeze .none).phase ≠ .busy ∧ (24#5).toNat < 25 ∧ (0x00001905#32).extractLsb' 0 4 = 5 ∧
    ((0x00001905#32).extractLsb' 8 5).toNat > 24 ∧ (0x00000015#32).extractLsb' 0 4 = 5 ∧
    (0x00000015#32).extractLsb' 4 4 ≠ 0 ∧ (0x00002005#32).extractLsb' 0 4 = 5 ∧
    (0x00002005#32).extractLsb' 13 19 ≠ 0 := by decide

theorem witness_PermuteRunsThePermutation :
    (atCursor 5).phase = .absorb ∧ State.RstLow (enterBusy .absorb (atCursor 5)) 24 ∧
    (0x00000104#32).extractLsb' 0 4 = 4 ∧ (0x00000104#32).extractLsb' 4 28 ≠ 0 ∧ (inSqueeze .none).phase = .squeeze :=
  ⟨by decide, rstLow_of_script_nil rfl 24, by decide, by decide, by decide⟩

/-- The last clause's error case too: FINAL in SQUEEZE changes `err`. -/
theorem witness_CommandFrames :
    (∃ t, exec (.absorb 8 1) (atCursor 128) = .next t ∧ t.dout = 0) ∧ (∃ t, exec .nop State.reset = .next t ∧ t.dout = 0) ∧
    (∃ t, exec (.read 24) (inSqueeze .none) = .next t ∧ t.dout = 7) ∧
    (∃ t, exec .permute (atCursor 5) = .next t ∧ t.cursor = 5) ∧
    (∃ t, exec .final (inSqueeze .none) = .next t ∧ t.err ≠ (inSqueeze .none).err) :=
  ⟨exists_next (by decide), exists_next (by decide), exists_next (by decide), exists_next (by decide),
    exists_next (by decide)⟩

/-- The bytes beside the stored ones exist at both ends of the block. -/
theorem witness_StoresTouchOnlyTheirBytes :
    (∃ t, exec (.absorb 8 1) (atCursor 128) = .next t ∧ t.cursor = 0) ∧
    ¬ ((atCursor 128).cursor.val ≤ (127 : Fin 200).val ∧ (127 : Fin 200).val < (atCursor 128).cursor.val + (8#4).toNat) ∧
    ¬ ((atCursor 128).cursor.val ≤ (136 : Fin 200).val ∧ (136 : Fin 200).val < (atCursor 128).cursor.val + (8#4).toNat) ∧
    (∃ t, exec .final (atCursor 135) = .next t ∧ t.cursor = 0) ∧
    (134 : Fin 200).val ≠ (atCursor 135).cursor.val ∧ (134 : Fin 200).val ≠ 135 :=
  ⟨exists_next (by decide), by decide, by decide, exists_next (by decide), by decide, by decide⟩

theorem witness_NopInitReadAreIdempotent :
    (inSqueeze .illegal).phase ≠ .busy ∧ (∃ t, exec .init (inSqueeze .illegal) = .next t ∧ t.err = .none) ∧
    (∃ t, exec (.read 24) (inSqueeze .illegal) = .next t ∧ t.dout = 7) ∧
    (∃ t, exec .nop (inSqueeze .illegal) = .next t ∧ t.dout = 9) :=
  ⟨by decide, exists_next (by decide), exists_next (by decide), exists_next (by decide)⟩

theorem witness_StateBytesAreLittleEndian :
    8 * (24 : Fin 25).val + (7 : Fin 8).val < 200 ∧ 7 < 8 ∧
    ∃ b : Fin 8 → Byte, ∀ j : Fin 8, b j = sbyte zeroLanes ⟨8 * (24 : Fin 25).val + j.val, by omega⟩ :=
  ⟨by decide, by decide, _, fun _ => rfl⟩

theorem witness_RotationMovesBits : (63 : Nat) ≤ 63 ∧ (1 : Nat) ≤ 63 ∧ (63 : Nat) < 64 := by decide

/-- The parities of the one-bit state, and of the all-zero state, where every one is false. -/
theorem witness_ThetaXorsTwoColumnParities :
    (∃ par : Fin 5 → Nat → Bool, ∀ x z, par x z =
      ((laneAt (oneLane 0 1) x 0).getLsbD z ^^ (laneAt (oneLane 0 1) x 1).getLsbD z ^^
        (laneAt (oneLane 0 1) x 2).getLsbD z ^^ (laneAt (oneLane 0 1) x 3).getLsbD z ^^
        (laneAt (oneLane 0 1) x 4).getLsbD z)) ∧
    (∀ x y : Fin 5, laneAt zeroLanes x y = 0) ∧ (63 : Nat) < 64 :=
  ⟨⟨_, fun _ _ => rfl⟩, by decide, by decide⟩

theorem witness_RhoRotatesEachLane : (63 : Nat) < 64 ∧ (0 : Nat) < 64 := by decide
theorem witness_ChiCombinesRows : (63 : Nat) < 64 ∧ (0 : Nat) < 64 := by decide
theorem witness_IotaXorsTheOriginLane : ((4, 4) : Fin 5 × Fin 5) ≠ (0, 0) ∧ ((0, 1) : Fin 5 × Fin 5) ≠ (0, 0) := by decide
theorem witness_RotationTableFollowsTheWalk : 1 ≤ (1 : Fin 25).val ∧ 1 ≤ (24 : Fin 25).val := by decide

/-- Each of the four branches. -/
theorem witness_ClockEdgeDoesOneOfFourThings :
    ((driven resetPort (inBusy 3 .absorb)).legal = true ∧ (driven resetPort (inBusy 3 .absorb)).port.rst = true) ∧
    ((inBusy 3 .absorb).legal = true ∧ (inBusy 3 .absorb).port.rst = false ∧ (inBusy 3 .absorb).phase = .busy) ∧
    ((presenting 3 0 State.reset).legal = true ∧ (presenting 3 0 State.reset).port.cmdValid = true) ∧
    ((inSqueeze .none).legal = true ∧ (inSqueeze .none).port.cmdValid = false) := by decide

theorem witness_ReadyDependsOnRstAndPhaseOnly :
    (let s := presenting 0xffffffff 0 (inSqueeze .none)
     s.legal = true ∧ s.cmdReady = true ∧ s.port.cmdValid = true ∧ illegalFormat s.port.cmd = true) ∧
    (presenting 3 0 State.reset).port.rst = State.reset.port.rst ∧
    (presenting 3 0 State.reset).phase = State.reset.phase := by decide

theorem witness_StepRunsTheDecodedCommand :
    (let s := presenting 0x00000032 0x636261 State.reset
     s.legal = true ∧ s.accepts = true ∧ decode s.port.cmd s.port.din = .ok (.absorb 3 0x636261) ∧
     s.script = .issue 0x00000032 0x636261 :: []) := ⟨by decide, by decide, rfl, rfl⟩

theorem witness_ResetOverridesEverything :
    (driven resetPort (inBusy 10 .squeeze)).port.rst = true ∧ (driven resetPort (inSqueeze .illegal)).port.rst = true := by
  decide

theorem witness_ResetLeavesWhatInitLeaves :
    (driven resetPort (inSqueeze .illegal)).port.rst = true ∧ (driven resetPort (inSqueeze .illegal)).phase ≠ .busy ∧
    (∃ t, step (driven resetPort (inSqueeze .illegal)) = .next t ∧ t.err = .none) ∧
    (∃ u, exec .init (driven resetPort (inSqueeze .illegal)) = .next u ∧ u.err = .none) :=
  ⟨by decide, by decide, exists_next (by decide), exists_next (by decide)⟩

/-- A round before the last, and the last before each phase. -/
theorem witness_EngineEdgePerformsOneRound :
    (inBusy 22 .absorb).port.rst = false ∧ (inBusy 22 .absorb).phase = .busy ∧ (inBusy 22 .absorb).round ≠ 23 ∧
    (inBusy 23 .absorb).phase = .busy ∧ (inBusy 23 .absorb).round = 23 ∧
    (inBusy 23 .squeeze).port.rst = false ∧ (inBusy 23 .squeeze).next = .squeeze := by decide

theorem witness_PermutationTakesTwentyFourEdges :
    (inBusy 0 .squeeze).phase = .busy ∧ (inBusy 0 .squeeze).round = 0 ∧ (inBusy 0 .squeeze).RstLow 24 :=
  ⟨by decide, by decide, rstLow_of_script_nil rfl 24⟩

theorem witness_HeldReadSeesThePermutedState :
    (24#5).toNat < 25 ∧ (presenting (encodeCmd (.read 24)) 0 (inBusy 0 .absorb)).phase = .busy ∧
    (presenting (encodeCmd (.read 24)) 0 (inBusy 0 .absorb)).round = 0 ∧
    (presenting (encodeCmd (.read 24)) 0 (inBusy 0 .absorb)).script = .issue (encodeCmd (.read 24)) 0 :: [] := by decide

theorem witness_DigestPortCarriesLanes : (3 : Fin 25).val < 4 ∧ (31 : Fin 200).val < 32 := by decide

/-- All three ways `dout` changes. -/
theorem witness_DoutChangesOnlyOnReadInitReset :
    (∃ t, step (presenting 0x00001805 0 (inSqueeze .none)) = .next t ∧ t.dout ≠ (inSqueeze .none).dout) ∧
    (∃ t, step (presenting 0x00000001 0 (inSqueeze .none)) = .next t ∧ t.dout ≠ (inSqueeze .none).dout) ∧
    (∃ t, step (driven resetPort (inSqueeze .none)) = .next t ∧ t.dout ≠ (inSqueeze .none).dout) :=
  ⟨exists_next (by decide), exists_next (by decide), exists_next (by decide)⟩

/-- The capacity lane 24 changed by reset, by INIT and by a round. -/
theorem witness_CapacityChangesOnlyByEngineInitReset :
    17 ≤ (24 : Fin 25).val ∧
    (∃ t, step (driven resetPort (inSqueeze .none)) = .next t ∧ t.A[24] ≠ (inSqueeze .none).A[24]) ∧
    (∃ t, step (presenting 0x00000001 0 (inSqueeze .none)) = .next t ∧ t.A[24] ≠ (inSqueeze .none).A[24]) ∧
    (∃ t, step { inBusy 0 .absorb with A := oneLane 0 1 } = .next t ∧ t.A[24] ≠ (oneLane 0 1)[24]) :=
  ⟨by decide, exists_next (by decide), exists_next (by decide), exists_next (by decide)⟩

theorem witness_SqueezeIsTerminal :
    (inSqueeze .none).phase = .squeeze ∧ (Instr.absorb 1 0).wf = true ∧ (Instr.read 0).wf = true ∧ Instr.final.wf = true ∧
    Instr.permute.wf = true ∧ (∃ t, step (inSqueeze .none) = .next t ∧ t.phase = .squeeze) ∧
    (∃ t, step (presenting 0x00000003 0 (inSqueeze .none)) = .next t ∧ t.err = .phase) :=
  ⟨by decide, by decide, by decide, by decide, by decide, exists_next (by decide), exists_next (by decide)⟩

theorem witness_ErrorsNeverStopTheBlock :
    (inBusy 7 .absorb).legal = true ∧
    (let s := presenting 0x00000003 0 (inSqueeze .none)
     s.legal = true ∧ s.accepts = true ∧ checkCmd s.port.cmd s ≠ .none) ∧
    (∃ t, step (presenting 0x00000003 0 (inSqueeze .none)) = .next t ∧ t.port.rst = false) :=
  ⟨by decide, by decide, exists_next (by decide)⟩

theorem witness_StepKeepsTheInvariant :
    (inBusy 23 .squeeze).Inv ∧ (∃ t, step (inBusy 23 .squeeze) = .next t ∧ t.phase = .squeeze) ∧
    (presenting 0x00000082 1 (atCursor 128)).Inv ∧
    (∃ t, step (presenting 0x00000082 1 (atCursor 128)) = .next t ∧ t.phase = .busy) :=
  ⟨⟨fun h => absurd rfl h, fun _ => rfl⟩, exists_next (by decide), ⟨fun _ => ⟨rfl, rfl⟩, fun h => nomatch h⟩,
    exists_next (by decide)⟩

theorem witness_UnreachableStateIsRefused :
    let s : State := { State.reset with round := 1 }
    s.port.rst = false ∧ s.phase ≠ .busy ∧ s.round ≠ 0 := by decide

/-- A message that leaves room for one pad byte, and one that fills its block. -/
theorem witness_PaddedLengthAndDigestLength :
    (List.replicate 135 (0 : Byte)).length % 136 = 135 ∧ (List.replicate 136 (0 : Byte)).length % 136 ≠ 135 ∧
    (List.replicate 136 (0 : Byte)).length < 137 ∧
    137 < (padMessage (List.replicate 136 0)).length - 1 := by decide +kernel

theorem witness_CanonicalChunkingSplitsTheMessage :
    1 < chunkCount (List.replicate 9 (0 : Byte)).length ∧ 0 + 1 < chunkCount (List.replicate 9 (0 : Byte)).length := by decide

/-- A block that is not filled and one that is. -/
theorem witness_AbsorbRefinesAppend :
    absorbed128.Absorbed (List.replicate 128 0) ∧ 1 ≤ (7#4).toNat ∧ (8#4).toNat ≤ 8 ∧
    absorbed128.cursor.val + (7#4).toNat < 136 ∧ absorbed128.cursor.val + (8#4).toNat = 136 ∧
    (∀ t, exec (.absorb 8 0) absorbed128 = .next t → t.RstLow 24) ∧
    Instr.nop.wf = true ∧ (Instr.read 24).wf = true ∧ State.reset.phase ≠ .busy :=
  ⟨⟨rfl, rfl, by decide +kernel⟩, by decide, by decide, by decide, by decide,
    fun _ h => rstLow_of_script_nil (exec_script h) 24, by decide, by decide, by decide⟩

theorem witness_FinalYieldsKeccak256 :
    absorbed128.Absorbed (List.replicate 128 0) ∧ (∀ t, exec .final absorbed128 = .next t → t.RstLow 24) ∧
    (31 : Nat) < 32 :=
  ⟨⟨rfl, rfl, by decide +kernel⟩, fun _ h => rstLow_of_script_nil (exec_script h) 24, by decide⟩

theorem witness_HashingRunYieldsKeccak256 :
    let s : State := { inSqueeze .overrun with script := hashScript [0x61, 0x62, 0x63] }
    s.phase ≠ .busy ∧ s.legal = true ∧ s.script = hashScript [0x61, 0x62, 0x63] ++ [] ∧ (31 : Nat) < 32 :=
  ⟨by decide, by decide, rfl, by decide⟩

end Sys2Proof.Tests
end

section
/-! Lane arithmetic (R15): ROTL64 as two shifts, as a number, and as a movement of bits. -/

namespace Sys2Proof.Machine

open Sys2Proof

@[simp] theorem rotl64_zero (v : Lane) : rotl64 v 0 = v := if_pos rfl

theorem rotl64_of_pos (v : Lane) {n : Nat} (hn : 1 ≤ n) : rotl64 v n = (v <<< n) ||| (v >>> (64 - n)) :=
  if_neg (by omega)

theorem toNat_rotl64_of_pos (v : Lane) {n : Nat} (hn : 1 ≤ n) :
    (rotl64 v n).toNat = ((v.toNat <<< n) ||| (v.toNat >>> (64 - n))) % 2 ^ 64 := by
  have hshift : v.toNat >>> (64 - n) < 2 ^ 64 := Nat.lt_of_le_of_lt (Nat.shiftRight_le _ _) v.isLt
  rw [rotl64_of_pos v hn, BitVec.toNat_or, BitVec.toNat_shiftLeft, BitVec.toNat_ushiftRight, Nat.or_mod_two_pow,
    Nat.mod_eq_of_lt hshift]

/-- The bits below n come round from the top of the lane. -/
theorem getLsbD_rotl64_of_lt (v : Lane) {n z : Nat} (hn : n ≤ 63) (hz : z < n) :
    (rotl64 v n).getLsbD z = v.getLsbD (z + (64 - n)) := by
  have hz64 : z < 64 := by omega
  simp [rotl64_of_pos v (show 1 ≤ n by omega), hz, hz64, Nat.add_comm]

/-- The bits from n on come from n places below; the right shift adds nothing to them. -/
theorem getLsbD_rotl64_of_le (v : Lane) {n z : Nat} (hz : z < 64) (hnz : n ≤ z) :
    (rotl64 v n).getLsbD z = v.getLsbD (z - n) := by
  rcases Nat.eq_zero_or_pos n with rfl | hn
  · rw [rotl64_zero, Nat.sub_zero]
  · have hhigh : v.getLsbD (64 - n + z) = false := BitVec.getLsbD_of_ge v _ (by omega)
    have hnlt : ¬ z < n := by omega
    rw [rotl64_of_pos v hn, BitVec.getLsbD_or, BitVec.getLsbD_shiftLeft, BitVec.getLsbD_ushiftRight, hhigh]
    simp [hz, hnlt]

/-- Bit z of ROTL64(v, n) is bit (z - n) mod 64 of v. -/
theorem getLsbD_rotl64 (v : Lane) {n z : Nat} (hn : n ≤ 63) (hz : z < 64) :
    (rotl64 v n).getLsbD z = v.getLsbD ((z + (64 - n)) % 64) := by
  rcases Nat.lt_or_ge z n with hlt | hge
  · have hsource : (z + (64 - n)) % 64 = z + (64 - n) := Nat.mod_eq_of_lt (by omega)
    rw [getLsbD_rotl64_of_lt v hn hlt, hsource]
  · have hsource : (z + (64 - n)) % 64 = z - n := by omega
    rw [getLsbD_rotl64_of_le v hz hge, hsource]

/-- Settles O25: the library's laws of the bitwise operators, and the three laws of ROTL64 above. -/
theorem rotationMovesBits : Obligations.RotationMovesBits := by
  refine ⟨fun v w z hz => ?operators, fun v n hn => ⟨?zero, toNat_rotl64_of_pos v, fun z hz => getLsbD_rotl64 v hn hz⟩⟩
  case operators =>
    have hnot : (~~~v).getLsbD z = !v.getLsbD z := by
      rw [BitVec.getLsbD_not, decide_eq_true hz, Bool.true_and]
    exact ⟨BitVec.getLsbD_xor, BitVec.getLsbD_and, BitVec.getLsbD_or, hnot⟩
  case zero =>
    rintro rfl
    exact rotl64_zero v

end Sys2Proof.Machine
end

section
/-! The bytes of the state (R33): the byte at a place in a lane, the lane from its bytes, and the bits of a byte. -/

namespace Sys2Proof.Machine

open Sys2Proof

/-- Byte 8i + j is the j-th byte of lane i: its lane and its shift are the quotient and the remainder by 8. -/
theorem sbyte_of_lane_and_offset (S : Lanes) (i : Fin 25) (j : Fin 8) (h : 8 * i.val + j.val < 200) :
    sbyte S ⟨8 * i.val + j.val, h⟩ = S[i].extractLsb' (8 * j.val) 8 := by
  have hlane : byteLane ⟨8 * i.val + j.val, h⟩ = i := Fin.ext (show (8 * i.val + j.val) / 8 = i.val by omega)
  have hshift : byteShift ⟨8 * i.val + j.val, h⟩ = 8 * j.val :=
    show 8 * ((8 * i.val + j.val) % 8) = 8 * j.val by omega
  simp only [sbyte, hlane, hshift]

/-- A lane is its 8 bytes, the lowest one last: each append joins two adjacent slices. -/
theorem append_bytes_eq_lane (v : Lane) :
    v.extractLsb' 56 8 ++ v.extractLsb' 48 8 ++ v.extractLsb' 40 8 ++ v.extractLsb' 32 8 ++
      v.extractLsb' 24 8 ++ v.extractLsb' 16 8 ++ v.extractLsb' 8 8 ++ v.extractLsb' 0 8 = v := by
  simp only [BitVec.extractLsb'_append_extractLsb'_eq_extractLsb']
  exact BitVec.extractLsb'_eq_self

/-- Bit b of byte k is state bit 8k + b: that bit's lane holds byte k, at the byte's shift plus b. -/
theorem getLsbD_sbyte (S : Lanes) (k : Fin 200) {b : Nat} (hb : b < 8) :
    (sbyte S k).getLsbD b = (S[(8 * k.val + b) / 64]'(by omega)).getLsbD ((8 * k.val + b) % 64) := by
  have hlane : (8 * k.val + b) / 64 = (byteLane k).val := show (8 * k.val + b) / 64 = k.val / 8 by omega
  have hbit : (8 * k.val + b) % 64 = byteShift k + b := show (8 * k.val + b) % 64 = 8 * (k.val % 8) + b by omega
  rw [sbyte, BitVec.getLsbD_extractLsb', decide_eq_true hb, Bool.true_and, hbit]
  simp only [hlane, Fin.getElem_fin]

/-- Settles O24: the three laws above, the second with the lane's bytes read from the state. -/
theorem stateBytesAreLittleEndian : Obligations.StateBytesAreLittleEndian := by
  refine ⟨sbyte_of_lane_and_offset, fun S i b hb => ?laneFromBytes, fun S k _ hb => getLsbD_sbyte S k hb⟩
  case laneFromBytes =>
    have hbyte (j : Fin 8) : b j = S[i].extractLsb' (8 * j.val) 8 := (hb j).trans (sbyte_of_lane_and_offset S i j _)
    simp only [hbyte]
    exact (append_bytes_eq_lane S[i]).symm

end Sys2Proof.Machine
end

section
/-! The capacity (R61): bytes 136..199, which are lanes 17..24, and the commands that leave them alone. -/

namespace Sys2Proof.Machine

open Sys2Proof

/-- A lane of 17..24 holds bytes of 136..199 only (R33). -/
theorem capacity_lane_ext {S T : Lanes} (h : ∀ k : Fin 200, 136 ≤ k.val → sbyte S k = sbyte T k) {l : Fin 25}
    (hl : 17 ≤ l.val) : S[l] = T[l] :=
  lane_ext_bytes l.isLt fun j => h _ (show 136 ≤ 8 * l.val + j.val by omega)

/-- The padding injector writes inside the rate: the cursor is at most 135 (R164). -/
theorem padLanes_capacity (s : State) {l : Fin 25} (hl : 17 ≤ l.val) : (padLanes s)[l] = s.A[l] := by
  refine capacity_lane_ext (fun k hk => ?_) hl
  have hcursor : k.val ≠ s.cursor.val := by omega
  have hlast : k.val ≠ 135 := by omega
  simp [sbyte_padLanes, hcursor, hlast]

/-- An ABSORB that does not overrun the block writes inside the rate (R162). -/
theorem absorbLanes_capacity {n : BitVec 4} {s : State} (din : Lane) (hfit : s.cursor.val + n.toNat ≤ 136)
    {l : Fin 25} (hl : 17 ≤ l.val) : (absorbLanes n din s)[l] = s.A[l] := by
  refine capacity_lane_ext (fun k hk => ?_) hl
  have hpast : ¬ (s.cursor.val ≤ k.val ∧ k.val < s.cursor.val + n.toNat) := by omega
  rw [sbyte_absorbLanes, if_neg hpast]

/-- Both branches of ABSORB's effect store the same lanes. -/
@[simp] theorem absorbEffect_A (n : BitVec 4) (din : Lane) (s : State) :
    (absorbEffect n din s).A = absorbLanes n din s := by
  unfold absorbEffect
  split <;> rfl

/-- The OVERRUN check keeps an ABSORB inside the block (R204). -/
theorem fits_of_checkInstr_absorb {n : BitVec 4} {din : Lane} {s : State}
    (h : checkInstr (.absorb n din) s = .none) : s.cursor.val + n.toNat ≤ 136 := by
  by_contra hover
  have hgt : s.cursor.val + n.toNat > 136 := by omega
  rw [checkInstr_absorb, if_pos hgt] at h
  split at h
  · cases h
  · split at h <;> cases h

/-- Of the commands' effects only INIT's writes a capacity lane. -/
theorem effectOf_capacity {i : Instr} {s : State} (hinit : i ≠ .init) (hc : checkInstr i s = .none) {l : Fin 25}
    (hl : 17 ≤ l.val) : (effectOf i s).A[l] = s.A[l] := by
  cases i with
  | nop => rfl
  | init => exact absurd rfl hinit
  | absorb n din =>
    simp only [effectOf, absorbEffect_A]
    exact absorbLanes_capacity din (fits_of_checkInstr_absorb hc) hl
  | final => exact padLanes_capacity s hl
  | permute => rfl
  | read lane => rfl

/-- No command but INIT writes a capacity lane: held, carried out or failed. -/
theorem exec_capacity {i : Instr} {s t : State} (hinit : i ≠ .init) (h : exec i s = .next t) {l : Fin 25}
    (hl : 17 ≤ l.val) : t.A[l] = s.A[l] := by
  rcases exec_cases h with ⟨_, rfl⟩ | ⟨_, hc, rfl⟩ | ⟨_, _, rfl⟩
  · rfl
  · exact effectOf_capacity hinit hc hl
  · rw [raiseCmdError_A]

/-- Outside reset and BUSY a valid command is accepted (R82, R83). -/
theorem accepts_of_cmdValid {s : State} (hr : s.port.rst = false) (hb : s.phase ≠ .busy)
    (hv : s.port.cmdValid = true) : s.accepts = true := by
  simp [State.accepts, State.cmdReady, hr, hb, hv]

/-- Settles O46, by the cases of an edge: outside reset and BUSY only an accepted INIT is left to change the lane. -/
theorem capacityChangesOnlyByEngineInitReset : Obligations.CapacityChangesOnlyByEngineInitReset := by
  intro s t l hstep hl hne
  rcases step_cases hstep with ⟨hr, _⟩ | ⟨_, hb, _⟩ | ⟨hr, hb, _, hv, i, u, hd, hx, rfl⟩ | ⟨_, _, _, _, _, rfl⟩ |
    ⟨_, _, _, _, rfl⟩
  · exact .inl hr
  · exact .inr (.inl hb)
  · by_cases hinit : i = .init
    · exact .inr (.inr ⟨accepts_of_cmdValid hr hb hv, hinit ▸ hd⟩)
    · rw [advanceHost_A] at hne
      exact absurd (exec_capacity hinit hx hl) hne
  · rw [advanceHost_A, raiseCmdError_A] at hne; exact absurd rfl hne
  · rw [advanceHost_A] at hne; exact absurd rfl hne

end Sys2Proof.Machine
end

section
/-! The decoder (R88, R89, R97): it is the inverse of the assembler on the well-formed commands, and the words it takes
are exactly those of which no line of `IllegalFormat` holds. -/

namespace Sys2Proof

/-- A word is determined by its four fields (R85). -/
theorem cmd_ext_iff {a b : CmdWord} :
    a = b ↔ cmdOp a = cmdOp b ∧ cmdN a = cmdN b ∧ cmdLane a = cmdLane b ∧ cmdRsv a = cmdRsv b := by
  refine ⟨by rintro rfl; simp, fun ⟨hop, hn, hlane, hrsv⟩ => BitVec.eq_of_toNat_eq ?_⟩
  replace hop := congrArg BitVec.toNat hop
  replace hn := congrArg BitVec.toNat hn
  replace hlane := congrArg BitVec.toNat hlane
  replace hrsv := congrArg BitVec.toNat hrsv
  simp only [cmdOp, cmdN, cmdLane, cmdRsv, BitVec.extractLsb'_toNat, Nat.shiftRight_eq_div_pow] at hop hn hlane hrsv
  omega

/-- A command with no field: every bit above OP is 0 (R89). -/
theorem bits_above_op_eq_zero_iff (cmd : CmdWord) :
    cmd.extractLsb' 4 28 = 0 ↔ cmdN cmd = 0 ∧ cmdLane cmd = 0 ∧ cmdRsv cmd = 0 := by
  simp only [cmdN, cmdLane, cmdRsv, ← BitVec.toNat_inj, BitVec.extractLsb'_toNat, Nat.shiftRight_eq_div_pow,
    BitVec.ofNat_eq_ofNat, BitVec.toNat_ofNat, Nat.zero_mod]
  omega

/-- ABSORB's unused bits are LANE and RSV (R89). -/
theorem bits_above_n_eq_zero_iff (cmd : CmdWord) :
    cmd.extractLsb' 8 24 = 0 ↔ cmdLane cmd = 0 ∧ cmdRsv cmd = 0 := by
  simp only [cmdLane, cmdRsv, ← BitVec.toNat_inj, BitVec.extractLsb'_toNat, Nat.shiftRight_eq_div_pow,
    BitVec.ofNat_eq_ofNat, BitVec.toNat_ofNat, Nat.zero_mod]
  omega

/-- The values of OP: the six of the opcode map and the reserved ones (R88, R90). -/
theorem op_cases (op : BitVec 4) :
    op = 0 ∨ op = 1 ∨ op = 2 ∨ op = 3 ∨ op = 4 ∨ op = 5 ∨ 6 ≤ op.toNat := by
  revert op; decide

/-- A command with no field decodes where every field but OP is 0. -/
theorem decodePlain_eq_ok_iff (cmd : CmdWord) (i j : Instr) :
    decodePlain cmd i = .ok j ↔ i = j ∧ cmdN cmd = 0 ∧ cmdLane cmd = 0 ∧ cmdRsv cmd = 0 := by
  unfold decodePlain
  split <;> simp_all

theorem decodeAbsorb_eq_ok_iff (cmd : CmdWord) (din : Lane) (j : Instr) :
    decodeAbsorb cmd din = .ok j ↔
      .absorb (cmdN cmd) din = j ∧ (Instr.absorb (cmdN cmd) din).wf = true ∧ cmdLane cmd = 0 ∧ cmdRsv cmd = 0 := by
  unfold decodeAbsorb
  split
  · split <;> simp_all
  · simp_all

theorem decodeRead_eq_ok_iff (cmd : CmdWord) (j : Instr) :
    decodeRead cmd = .ok j ↔
      .read (cmdLane cmd) = j ∧ (Instr.read (cmdLane cmd)).wf = true ∧ cmdN cmd = 0 ∧ cmdRsv cmd = 0 := by
  unfold decodeRead
  split
  · split <;> simp_all
  · simp_all

/-- The assembler's word decodes to its command, ABSORB's with the data word beside it (R88, R92, R97). -/
theorem decode_encodeCmd {i : Instr} {din : Lane} (hwf : i.wf = true) (hdin : ∀ n d, i = .absorb n d → d = din) :
    decode (encodeCmd i) din = .ok i := by
  cases i with
  | absorb n d =>
    obtain rfl := hdin n d rfl
    simp [decode, encodeCmd, decodeAbsorb_eq_ok_iff, hwf]
  | read lane => simp [decode, encodeCmd, decodeRead_eq_ok_iff, hwf]
  | nop | init | final | permute => simp [decode, encodeCmd, decodePlain_eq_ok_iff]

/-- No word with a reserved OP decodes (R90). -/
theorem decode_reservedOp {cmd : CmdWord} (din : Lane) (h : 6 ≤ (cmdOp cmd).toNat) :
    decode cmd din = .error .reservedOp := by
  obtain ⟨k, hk⟩ := Nat.exists_eq_add_of_le' h
  simp only [decode, hk]

/-- A plain command's word has nothing but its OP. -/
theorem encodeCmd_of_decodePlain {cmd : CmdWord} {i j : Instr} (hword : encodeCmd i = cmdWord (cmdOp cmd) 0 0)
    (h : decodePlain cmd i = .ok j) : j = i ∧ encodeCmd j = cmd := by
  obtain ⟨rfl, hn, hlane, hrsv⟩ := (decodePlain_eq_ok_iff _ _ _).mp h
  exact ⟨rfl, by rw [hword, ← cmdWord_fields cmd hrsv, hn, hlane, cmdOp_word]⟩

/-- What the decoder answers is well formed, its word is the assembler's, and its data word is `din` (R89, R92). -/
theorem encodeCmd_of_decode {cmd : CmdWord} {din : Lane} {i : Instr} (h : decode cmd din = .ok i) :
    i.wf = true ∧ encodeCmd i = cmd ∧ ∀ n d, i = .absorb n d → d = din := by
  rcases op_cases (cmdOp cmd) with hop | hop | hop | hop | hop | hop | hop
  case inr.inr.inr.inr.inr.inr => rw [decode_reservedOp din hop] at h; cases h
  case inr.inr.inl =>
    simp only [decode, hop] at h
    obtain ⟨rfl, hwf, hlane, hrsv⟩ := (decodeAbsorb_eq_ok_iff _ _ _).mp h
    refine ⟨hwf, ?_, fun n d e => (Instr.absorb.inj e).2.symm⟩
    rw [encodeCmd, ← hop, ← hlane, cmdWord_fields cmd hrsv]
  case inr.inr.inr.inr.inr.inl =>
    simp only [decode, hop] at h
    obtain ⟨rfl, hwf, hn, hrsv⟩ := (decodeRead_eq_ok_iff _ _).mp h
    refine ⟨hwf, ?_, nofun⟩
    rw [encodeCmd, ← hop, ← hn, cmdWord_fields cmd hrsv]
  all_goals
    simp only [decode, hop] at h
    obtain ⟨rfl, hword⟩ := encodeCmd_of_decodePlain (by rw [hop]; rfl) h
    exact ⟨rfl, hword, nofun⟩

/-- The decoder inverts the assembler (R88, R89, R97). -/
theorem decode_eq_ok_iff {cmd : CmdWord} {din : Lane} {i : Instr} :
    decode cmd din = .ok i ↔ i.wf = true ∧ encodeCmd i = cmd ∧ ∀ n d, i = .absorb n d → d = din :=
  ⟨encodeCmd_of_decode, fun ⟨hwf, hword, hdin⟩ => hword ▸ decode_encodeCmd hwf hdin⟩

/-- The word of a well-formed command is no `IllegalFormat` word (R89, R97). -/
theorem illegalFormat_encodeCmd {i : Instr} (hwf : i.wf = true) : illegalFormat (encodeCmd i) = false :=
  match i with
  | .nop => Laws.EncodedWordIsLegal.nop hwf
  | .init => Laws.EncodedWordIsLegal.init hwf
  | .absorb n din => Laws.EncodedWordIsLegal.absorb n din hwf
  | .final => Laws.EncodedWordIsLegal.final hwf
  | .permute => Laws.EncodedWordIsLegal.permute hwf
  | .read lane => Laws.EncodedWordIsLegal.read lane hwf

/-- The four lines of `IllegalFormat` as the spec writes them (R89). -/
theorem illegalFormat_iff (cmd : CmdWord) :
    illegalFormat cmd = true ↔
      (cmdOp cmd).toNat ≥ 6 ∨
      (((cmdOp cmd).toNat = 0 ∨ (cmdOp cmd).toNat = 1 ∨ (cmdOp cmd).toNat = 3 ∨ (cmdOp cmd).toNat = 4) ∧
        cmd.extractLsb' 4 28 ≠ 0) ∨
      ((cmdOp cmd).toNat = 2 ∧ (cmd.extractLsb' 8 24 ≠ 0 ∨ (cmdN cmd).toNat = 0 ∨ (cmdN cmd).toNat > 8)) ∨
      ((cmdOp cmd).toNat = 5 ∧ (cmdRsv cmd ≠ 0 ∨ (cmdN cmd).toNat ≠ 0 ∨ (cmdLane cmd).toNat > 24)) := by
  simp only [illegalFormat, cmdOp, cmdN, cmdLane, cmdRsv, Bool.or_eq_true, Bool.and_eq_true, decide_eq_true_eq, or_assoc]

/-- A word of which no line of `IllegalFormat` holds decodes: the line of its OP is the row's condition (R89). -/
theorem exists_decode_of_legal {cmd : CmdWord} (din : Lane) (h : illegalFormat cmd = false) :
    ∃ i, decode cmd din = .ok i := by
  rw [← Bool.not_eq_true, illegalFormat_iff, ne_eq, bits_above_op_eq_zero_iff, ne_eq, bits_above_n_eq_zero_iff] at h
  rcases op_cases (cmdOp cmd) with hop | hop | hop | hop | hop | hop | hop
  case inr.inr.inr.inr.inr.inr => exact absurd (.inl hop) h
  all_goals simp [hop] at h
  · exact ⟨.nop, by simp [decode, hop, decodePlain_eq_ok_iff, h]⟩
  · exact ⟨.init, by simp [decode, hop, decodePlain_eq_ok_iff, h]⟩
  · have hwf : (Instr.absorb (cmdN cmd) din).wf = true := by simp [Instr.wf]; omega
    exact ⟨.absorb (cmdN cmd) din, by simp [decode, hop, decodeAbsorb_eq_ok_iff, hwf, h]⟩
  · exact ⟨.final, by simp [decode, hop, decodePlain_eq_ok_iff, h]⟩
  · exact ⟨.permute, by simp [decode, hop, decodePlain_eq_ok_iff, h]⟩
  · obtain ⟨hrsv, hn, hlane⟩ := h
    have hwf : (Instr.read (cmdLane cmd)).wf = true := by simp [Instr.wf]; omega
    have hzero : cmdN cmd = 0 := BitVec.eq_of_toNat_eq hn
    exact ⟨.read (cmdLane cmd), by simp [decode, hop, decodeRead_eq_ok_iff, hwf, hrsv, hzero]⟩

/-- The decoder refuses exactly the `IllegalFormat` words (R89). -/
theorem decode_eq_error_iff {cmd : CmdWord} {din : Lane} :
    (∃ e, decode cmd din = .error e) ↔ illegalFormat cmd = true := by
  refine ⟨fun ⟨e, he⟩ => ?_, fun h => ?_⟩
  · by_contra hlegal
    obtain ⟨i, hi⟩ := exists_decode_of_legal din (Bool.eq_false_of_not_eq_true hlegal)
    rw [hi] at he; cases he
  · cases hd : decode cmd din with
    | error e => exact ⟨e, rfl⟩
    | ok i =>
      obtain ⟨hwf, rfl, -⟩ := encodeCmd_of_decode hd
      rw [illegalFormat_encodeCmd hwf] at h; cases h

/-! The masks of the opcode map (R88) keep or clear whole fields. -/

/-- A masked comparison, field by field. -/
theorem and_eq_iff_fields {cmd mask word : CmdWord} :
    cmd &&& mask = word ↔ cmdOp cmd &&& cmdOp mask = cmdOp word ∧ cmdN cmd &&& cmdN mask = cmdN word ∧
      cmdLane cmd &&& cmdLane mask = cmdLane word ∧ cmdRsv cmd &&& cmdRsv mask = cmdRsv word := by
  simp only [cmd_ext_iff, cmdOp, cmdN, cmdLane, cmdRsv, BitVec.extractLsb'_and]

/-- The mask of a command with no field keeps every bit. -/
theorem and_plainMask (cmd : CmdWord) : cmd &&& 0xFFFFFFFF#32 = cmd := BitVec.and_allOnes

/-- ABSORB's mask clears N and keeps the other fields. -/
theorem and_absorbMask_eq_iff (cmd : CmdWord) :
    cmd &&& 0xFFFFFF0F#32 = 0x00000002#32 ↔ cmd = cmdWord 2 (cmdN cmd) 0 := by
  have hop : cmdOp 0xFFFFFF0F#32 = BitVec.allOnes 4 := rfl
  have hn : cmdN 0xFFFFFF0F#32 = 0#4 := rfl
  have hlane : cmdLane 0xFFFFFF0F#32 = BitVec.allOnes 5 := rfl
  have hrsv : cmdRsv 0xFFFFFF0F#32 = BitVec.allOnes 19 := rfl
  have hmatch : 0x00000002#32 = cmdWord 2 0 0 := rfl
  rw [hmatch, and_eq_iff_fields, cmd_ext_iff]
  simp only [hop, hn, hlane, hrsv, BitVec.and_allOnes, BitVec.and_zero, cmdOp_word, cmdN_word, cmdLane_word,
    cmdRsv_word, BitVec.ofNat_eq_ofNat, true_and]

/-- READ's mask clears LANE and keeps the other fields. -/
theorem and_readMask_eq_iff (cmd : CmdWord) :
    cmd &&& 0xFFFFE0FF#32 = 0x00000005#32 ↔ cmd = cmdWord 5 0 (cmdLane cmd) := by
  have hop : cmdOp 0xFFFFE0FF#32 = BitVec.allOnes 4 := rfl
  have hn : cmdN 0xFFFFE0FF#32 = BitVec.allOnes 4 := rfl
  have hlane : cmdLane 0xFFFFE0FF#32 = 0#5 := rfl
  have hrsv : cmdRsv 0xFFFFE0FF#32 = BitVec.allOnes 19 := rfl
  have hmatch : 0x00000005#32 = cmdWord 5 0 0 := rfl
  rw [hmatch, and_eq_iff_fields, cmd_ext_iff]
  simp only [hop, hn, hlane, hrsv, BitVec.and_allOnes, BitVec.and_zero, cmdOp_word, cmdN_word, cmdLane_word,
    cmdRsv_word, BitVec.ofNat_eq_ofNat, true_and]

/-- The row of a command without ABSORB's data word: its one word (R88). -/
theorem decode_eq_ok_iff_word {cmd : CmdWord} {din : Lane} {i : Instr} (hwf : i.wf = true)
    (hi : ∀ n d, i ≠ .absorb n d) : decode cmd din = .ok i ↔ cmd = encodeCmd i := by
  simp [decode_eq_ok_iff, hwf, hi, eq_comm (a := cmd)]

theorem decode_eq_nop_iff {cmd : CmdWord} {din : Lane} :
    decode cmd din = .ok .nop ↔ cmd &&& 0xFFFFFFFF#32 = 0x00000000#32 := by
  rw [and_plainMask]; exact decode_eq_ok_iff_word rfl nofun

theorem decode_eq_init_iff {cmd : CmdWord} {din : Lane} :
    decode cmd din = .ok .init ↔ cmd &&& 0xFFFFFFFF#32 = 0x00000001#32 := by
  rw [and_plainMask]; exact decode_eq_ok_iff_word rfl nofun

theorem decode_eq_final_iff {cmd : CmdWord} {din : Lane} :
    decode cmd din = .ok .final ↔ cmd &&& 0xFFFFFFFF#32 = 0x00000003#32 := by
  rw [and_plainMask]; exact decode_eq_ok_iff_word rfl nofun

theorem decode_eq_permute_iff {cmd : CmdWord} {din : Lane} :
    decode cmd din = .ok .permute ↔ cmd &&& 0xFFFFFFFF#32 = 0x00000004#32 := by
  rw [and_plainMask]; exact decode_eq_ok_iff_word rfl nofun

/-- ABSORB's row: the word decodes to it exactly when the mask and the range fit (R86, R88). -/
theorem decode_eq_absorb_iff {cmd : CmdWord} {din d : Lane} {n : BitVec 4} :
    decode cmd din = .ok (.absorb n d) ↔ (n = cmdN cmd ∧ d = din) ∧ cmd &&& 0xFFFFFF0F#32 = 0x00000002#32 ∧
      1 ≤ (cmdN cmd).toNat ∧ (cmdN cmd).toNat ≤ 8 := by
  rw [decode_eq_ok_iff, and_absorbMask_eq_iff]
  constructor
  · rintro ⟨hwf, rfl, hdin⟩
    obtain rfl := hdin n d rfl
    simpa [encodeCmd, Instr.wf] using hwf
  · rintro ⟨⟨rfl, rfl⟩, hword, hn⟩
    exact ⟨by simpa [Instr.wf] using hn, hword.symm, fun _ _ e => (Instr.absorb.inj e).2.symm⟩

/-- READ's row (R87, R88). -/
theorem decode_eq_read_iff {cmd : CmdWord} {din : Lane} {lane : BitVec 5} :
    decode cmd din = .ok (.read lane) ↔ lane = cmdLane cmd ∧ cmd &&& 0xFFFFE0FF#32 = 0x00000005#32 ∧
      (cmdLane cmd).toNat ≤ 24 := by
  rw [decode_eq_ok_iff, and_readMask_eq_iff]
  constructor
  · rintro ⟨hwf, rfl, -⟩
    simpa [encodeCmd, Instr.wf, Nat.lt_succ_iff] using hwf
  · rintro ⟨rfl, hword, hlane⟩
    exact ⟨by simpa [Instr.wf, Nat.lt_succ_iff] using hlane, hword.symm, nofun⟩

/-- Settles O5, row by row: the five rows of the other commands fail. -/
theorem opcodeMapSelectsTheCommand : Obligations.OpcodeMapSelectsTheCommand := by
  intro cmd din i
  change _ ↔ _ ∨ _ ∨ (i = .absorb (cmdN cmd) din ∧ _ ∧ 1 ≤ (cmdN cmd).toNat ∧ (cmdN cmd).toNat ≤ 8) ∨ _ ∨ _ ∨
    (i = .read (cmdLane cmd) ∧ _ ∧ (cmdLane cmd).toNat ≤ 24)
  cases i with
  | absorb n d => simp [decode_eq_absorb_iff]
  | read lane => simp [decode_eq_read_iff]
  | nop => simp [decode_eq_nop_iff]
  | init => simp [decode_eq_init_iff]
  | final => simp [decode_eq_final_iff]
  | permute => simp [decode_eq_permute_iff]

end Sys2Proof
end

section
/-! Executing a word (R99): the checks of the raw word are those of its command, and an illegal word records ILLEGAL. -/

namespace Sys2Proof.Machine

open Sys2Proof

/-- An illegal word records ILLEGAL and does nothing else (R90, R202). -/
theorem execute_of_illegal {cmd : CmdWord} (din : Lane) (s : State) (h : illegalFormat cmd = true) :
    execute cmd din s = .next (raiseCmdError .illegal s) := by
  obtain ⟨e, he⟩ := decode_eq_error_iff (din := din) |>.mpr h
  simp only [execute, he]

/-- A word that decodes runs its command. -/
theorem execute_of_decode {cmd : CmdWord} {din : Lane} {i : Instr} (s : State) (h : decode cmd din = .ok i) :
    execute cmd din s = exec i s := by
  simp only [execute, h]

/-- The checks of an assembled word are those of its command (R208). -/
theorem checkCmd_encodeCmd {i : Instr} (s : State) (hwf : i.wf = true) :
    checkCmd (encodeCmd i) s = checkInstr i s := by
  simp only [checkCmd, ← cmdOp.eq_1, ← cmdN.eq_1, illegalFormat_encodeCmd hwf]
  cases i with
  | nop => rfl
  | init => rfl
  | absorb n din =>
    have hn : 1 ≤ n.toNat ∧ n.toNat ≤ 8 := by simpa [Instr.wf] using hwf
    simp [encodeCmd, checkInstr_absorb, hn]
  | final => simp [encodeCmd, checkInstr_final]
  | permute => simp [encodeCmd, checkInstr_permute]
  | read lane =>
    have hlane : lane.toNat < 25 := by simpa [Instr.wf] using hwf
    simp [encodeCmd, checkInstr_read, hlane]

/-- The command an OP selects, with its fields taken from the word (R99). -/
theorem exec_eq_dispatch {cmd : CmdWord} {din : Lane} {i : Instr} (s : State) (h : decode cmd din = .ok i) :
    exec i s = match (cmdOp cmd).toNat with
      | 0 => exec .nop s
      | 1 => exec .init s
      | 2 => exec (.absorb (cmdN cmd) din) s
      | 3 => exec .final s
      | 4 => exec .permute s
      | _ => exec (.read (cmdLane cmd)) s := by
  obtain ⟨-, rfl, hdin⟩ := encodeCmd_of_decode h
  cases i with
  | absorb n d => obtain rfl := hdin n d rfl; simp [encodeCmd]
  | nop | init | final | permute | read lane => simp [encodeCmd]

/-- Settles O7: an illegal word fails the first check; any other decodes, and its command makes the same checks. -/
theorem executeChecksThenDispatches : Obligations.ExecuteChecksThenDispatches := by
  intro s cmd din hb
  refine ⟨rfl, ?_⟩
  change execute cmd din s = if checkCmd cmd s ≠ .none then .next (raiseCmdError (checkCmd cmd s) s) else _
  cases hlegal : illegalFormat cmd with
  | true =>
    have hcheck : checkCmd cmd s = .illegal := by simp [checkCmd, hlegal]
    simp [hcheck, execute_of_illegal din s hlegal]
  | false =>
    obtain ⟨i, hi⟩ := exists_decode_of_legal din hlegal
    obtain ⟨hwf, hword, -⟩ := encodeCmd_of_decode hi
    have hcheck : checkCmd cmd s = checkInstr i s := hword ▸ checkCmd_encodeCmd s hwf
    rw [execute_of_decode s hi, hcheck]
    split
    · next herr => exact exec_error hb herr
    · exact exec_eq_dispatch s hi

/-- A command that a word decodes to never records ILLEGAL: it is well formed. -/
theorem checkInstr_ne_illegal {i : Instr} (s : State) (hwf : i.wf = true) : checkInstr i s ≠ .illegal := by
  simp only [checkInstr, hwf, Bool.true_eq_false, if_false]
  split
  · nofun
  · split <;> nofun

/-- No effect sets `err`: INIT clears it and every other command keeps it. -/
theorem effectOf_err (i : Instr) (s : State) : (effectOf i s).err = .none ∨ (effectOf i s).err = s.err := by
  cases i with
  | init => exact .inl rfl
  | absorb n din =>
    right
    simp only [effectOf, absorbEffect]
    split <;> rfl
  | nop | final | permute | read lane => exact .inr rfl

/-- A legal word records no ILLEGAL. -/
theorem err_ne_illegal_of_legal {cmd : CmdWord} {din : Lane} {s t : State} (hlegal : illegalFormat cmd = false)
    (herr : s.err = .none) (h : execute cmd din s = .next t) : t.err ≠ .illegal := by
  obtain ⟨i, hi⟩ := exists_decode_of_legal din hlegal
  obtain ⟨hwf, -, -⟩ := encodeCmd_of_decode hi
  rw [execute_of_decode s hi] at h
  rcases exec_cases h with ⟨_, rfl⟩ | ⟨_, _, rfl⟩ | ⟨_, _, rfl⟩
  · simp [herr]
  · rcases effectOf_err i s with he | he <;> simp [he, herr]
  · simpa [herr] using checkInstr_ne_illegal s hwf

/-- The word raises ILLEGAL, where no error is recorded, exactly when a line of `IllegalFormat` holds (R89, R202). -/
theorem records_illegal_iff {s : State} (cmd : CmdWord) (din : Lane) (herr : s.err = .none) :
    (∃ t, execute cmd din s = .next t ∧ t.err = .illegal) ↔ illegalFormat cmd = true := by
  constructor
  · rintro ⟨t, ht, hill⟩
    by_contra hlegal
    exact err_ne_illegal_of_legal (Bool.eq_false_of_not_eq_true hlegal) herr ht hill
  · intro h
    exact ⟨_, execute_of_illegal din s h, by simp [herr]⟩

/-- The well-formed commands, ABSORB with data word 0. -/
def wellFormedInstrs : List Instr :=
  [.nop, .init, .final, .permute] ++ (List.range 8).map (fun k => .absorb (BitVec.ofNat 4 (k + 1)) 0) ++
    (List.range 25).map fun k => .read (BitVec.ofNat 5 k)

/-- The 37 legal words (R89). -/
def legalWords : List CmdWord := wellFormedInstrs.map encodeCmd

/-- The word of every well-formed command is one of the 37. -/
theorem encodeCmd_mem_legalWords {i : Instr} (hwf : i.wf = true) : encodeCmd i ∈ legalWords := by
  cases i with
  | nop | init | final | permute => decide
  | absorb n din =>
    have h : ∀ n : BitVec 4, (Instr.absorb n 0).wf = true → cmdWord 2 n 0 ∈ legalWords := by decide
    exact h n hwf
  | read lane =>
    have h : ∀ lane : BitVec 5, (Instr.read lane).wf = true → cmdWord 5 0 lane ∈ legalWords := by decide
    exact h lane hwf

/-- The 37 words are those that decode, whatever `din` holds. -/
theorem mem_legalWords_iff (cmd : CmdWord) : cmd ∈ legalWords ↔ ∀ din, ∃ i, decode cmd din = .ok i := by
  constructor
  · intro hmem din
    obtain ⟨i, hi, rfl⟩ := List.mem_map.mp hmem
    have hwf : ∀ i ∈ wellFormedInstrs, i.wf = true := by decide
    exact exists_decode_of_legal din (illegalFormat_encodeCmd (hwf i hi))
  · intro h
    obtain ⟨i, hi⟩ := h 0
    obtain ⟨hwf, rfl, -⟩ := encodeCmd_of_decode hi
    exact encodeCmd_mem_legalWords hwf

/-- Settles O4: the four lines are `illegalFormat`, and the words are counted from the assembler. -/
theorem illegalFormatRaisesIllegalExactly : Obligations.IllegalFormatRaisesIllegalExactly :=
  ⟨fun _ cmd din _ herr => (records_illegal_iff cmd din herr).trans (illegalFormat_iff cmd),
    legalWords, by decide, by decide, mem_legalWords_iff, by decide, by decide, by decide⟩

end Sys2Proof.Machine
end

section
/-! One edge (R82): what it does outside a state that R44 excludes, and when it reads the port (R83, R84). -/

namespace Sys2Proof.Machine

open Sys2Proof

theorem cmdReady_iff (s : State) : s.cmdReady = true ↔ s.port.rst = false ∧ s.phase ≠ .busy := by
  simp [State.cmdReady]

theorem accepts_iff (s : State) :
    s.accepts = true ↔ s.port.rst = false ∧ s.phase ≠ .busy ∧ s.port.cmdValid = true := by
  simp only [State.accepts, Bool.and_eq_true, cmdReady_iff]
  tauto

/-- Equality of the seven registers, field by field. -/
theorem sameRegisters_iff {s t : State} :
    s.SameRegisters t ↔ s.A = t.A ∧ s.phase = t.phase ∧ s.next = t.next ∧ s.round = t.round ∧ s.cursor = t.cursor ∧
      s.err = t.err ∧ s.dout = t.dout := by
  cases s; cases t; simp [State.SameRegisters]

/-- The host's moving on is no change of a register. -/
theorem advanceHost_sameRegisters (b : Bool) (s : State) : (advanceHost b s).SameRegisters s := by
  simp [sameRegisters_iff]

/-- A reset edge leaves the reset values in every register (R230). -/
theorem resetEdge_sameRegisters (b : Bool) (s : State) :
    (advanceHost b (clearRegisters s)).SameRegisters State.reset := by
  simp [sameRegisters_iff]

/-- An accepting edge executes the word on the port (R84, R99). -/
theorem step_of_accepts {s : State} (hl : s.legal = true) (ha : s.accepts = true) :
    ∃ t, execute s.port.cmd s.port.din s = .next t ∧ step s = .next (advanceHost true t) := by
  obtain ⟨hr, hb, hv⟩ := (accepts_iff s).mp ha
  obtain ⟨t, ht⟩ := execute_next s.port.cmd s.port.din s
  exact ⟨t, ht, by rw [step_accept hr hl hb hv, ht]; rfl⟩

/-- An illegal word is accepted like any other, and the edge records ILLEGAL (R83, R90). -/
theorem step_of_illegal {s : State} (hl : s.legal = true) (hready : s.cmdReady = true)
    (hv : s.port.cmdValid = true) (hill : illegalFormat s.port.cmd = true) :
    s.accepts = true ∧ step s = .next (advanceHost true (raiseCmdError .illegal s)) := by
  obtain ⟨hr, hb⟩ := (cmdReady_iff s).mp hready
  refine ⟨accepts_of_cmdValid hr hb hv, ?_⟩
  rw [step_accept hr hl hb hv, execute_of_illegal _ _ hill, mapNext]

/-- Settles O36, from the definition of `cmd_ready` and the edge of an illegal word. -/
theorem readyDependsOnRstAndPhaseOnly : Obligations.ReadyDependsOnRstAndPhaseOnly :=
  ⟨cmdReady_iff, fun s t hrst hphase => by rw [State.cmdReady, State.cmdReady, hrst, hphase],
    fun _ => step_of_illegal⟩

/-- Settles O6: a reserved OP is the first line of `IllegalFormat`. -/
theorem reservedOpOnlyRecordsIllegal : Obligations.ReservedOpOnlyRecordsIllegal := by
  intro s hl hready hv hop
  have hill : illegalFormat s.port.cmd = true := (illegalFormat_iff _).mpr (.inl hop)
  obtain ⟨hacc, hstep⟩ := step_of_illegal hl hready hv hill
  exact ⟨hacc, _, hstep, by simp, by simp [sameRegisters_iff]⟩

/-- Settles O35: the four kinds of edge, each with the host moved on. -/
theorem clockEdgeDoesOneOfFourThings : Obligations.ClockEdgeDoesOneOfFourThings := by
  intro s hl
  refine ⟨accepts_iff s, ?_⟩
  cases hr : s.port.rst with
  | true => exact ⟨_, step_reset hr, by simpa using resetEdge_sameRegisters false s⟩
  | false =>
    by_cases hb : s.phase = .busy
    · exact ⟨_, step_busy hr hb, by simpa [hb] using advanceHost_sameRegisters false (engineRound s)⟩
    cases hv : s.port.cmdValid with
    | true =>
      obtain ⟨u, hu, hstep⟩ := step_of_accepts hl (accepts_of_cmdValid hr hb hv)
      exact ⟨_, hstep, by simpa [hb] using ⟨u, hu, advanceHost_sameRegisters true u⟩⟩
    | false => exact ⟨_, step_idle hr hl hb hv, by simpa [hb] using advanceHost_sameRegisters false s⟩

/-! The edges of a driven port: none of them reads `cmd` or `din` where no command is accepted. -/

theorem step_drive_reset (s : State) {p : PortIn} (rest : List HostMove) (hp : p.rst = true) :
    step { s with script := .drive p :: rest } = .next { State.reset with script := rest } :=
  step_reset hp

/-- The engine reads no port and keeps the host's moves (R133). -/
theorem engineRound_withScript (s : State) (moves : List HostMove) :
    engineRound { s with script := moves } = { engineRound s with script := moves } := by
  unfold engineRound
  split <;> rfl

theorem step_drive_busy {s : State} {p : PortIn} (rest : List HostMove) (hp : p.rst = false) (hb : s.phase = .busy) :
    step { s with script := .drive p :: rest } = .next { engineRound s with script := rest } := by
  rw [step_busy (s := { s with script := .drive p :: rest }) hp hb, engineRound_withScript]
  rfl

theorem step_drive_idle {s : State} {p : PortIn} (rest : List HostMove) (hp : p.rst = false) (hb : s.phase ≠ .busy)
    (hl : s.legal = true) (hv : p.cmdValid = false) :
    step { s with script := .drive p :: rest } = .next { s with script := rest } :=
  step_idle hp hl hb hv

theorem step_drive_unreachable {s : State} {p : PortIn} (rest : List HostMove) (hp : p.rst = false)
    (hl : s.legal = false) : step { s with script := .drive p :: rest } = .refused .unreachableState := by
  have hr : (State.port { s with script := .drive p :: rest }).rst = false := hp
  have hl' : (State.legal { s with script := .drive p :: rest }) = false := hl
  simp [step, clockEdge, hr, hl']

/-- Without `cmd_valid` the edge is decided by `rst`. -/
theorem step_drive_congr (s : State) {p q : PortIn} (rest : List HostMove) (hrst : p.rst = q.rst)
    (hp : p.cmdValid = false) (hq : q.cmdValid = false) :
    step { s with script := .drive p :: rest } = step { s with script := .drive q :: rest } := by
  cases hr : q.rst with
  | true => rw [step_drive_reset s rest (hrst.trans hr), step_drive_reset s rest hr]
  | false =>
    by_cases hb : s.phase = .busy
    · rw [step_drive_busy rest (hrst.trans hr) hb, step_drive_busy rest hr hb]
    cases hl : s.legal with
    | true => rw [step_drive_idle rest (hrst.trans hr) hb hl hp, step_drive_idle rest hr hb hl hq]
    | false => rw [step_drive_unreachable rest (hrst.trans hr) hl, step_drive_unreachable rest hr hl]

/-- Settles O12: each driven edge without a command answers the same for both ports, and an accepting edge executes. -/
theorem commandSampledOnlyWhenAccepted : Obligations.CommandSampledOnlyWhenAccepted := by
  refine ⟨fun s p q rest hb hp hq => ?_, fun s p q rest => step_drive_congr s rest, fun s p q rest hp hq => ?_,
    fun s => step_of_accepts⟩
  · rw [step_drive_busy rest hp hb, step_drive_busy rest hq hb]
  · rw [step_drive_reset s rest hp, step_drive_reset s rest hq]

/-- Of the commands' effects only INIT's and READ's write `dout`. -/
theorem effectOf_dout {i : Instr} (s : State) (hinit : i ≠ .init) (hread : ∀ lane, i ≠ .read lane) :
    (effectOf i s).dout = s.dout := by
  cases i with
  | init => exact absurd rfl hinit
  | read lane => exact absurd rfl (hread lane)
  | absorb n din =>
    simp only [effectOf, absorbEffect]
    split <;> rfl
  | nop | final | permute => rfl

/-- A command that changes `dout` is INIT or READ: held or failed it changes nothing of it. -/
theorem init_or_read_of_exec_dout {i : Instr} {s t : State} (h : exec i s = .next t) (hne : t.dout ≠ s.dout) :
    i = .init ∨ ∃ lane, i = .read lane := by
  by_contra hother
  obtain ⟨hinit, hread⟩ := not_or.mp hother
  apply hne
  rcases exec_cases h with ⟨_, rfl⟩ | ⟨_, _, rfl⟩ | ⟨_, _, rfl⟩
  · rfl
  · exact effectOf_dout s hinit (not_exists.mp hread)
  · exact raiseCmdError_dout _ s

/-- Settles O45, by the cases of an edge: outside reset only an accepted command is left to change `dout`. -/
theorem doutChangesOnlyOnReadInitReset : Obligations.DoutChangesOnlyOnReadInitReset := by
  intro s t hstep hne
  rcases step_cases hstep with ⟨hr, _⟩ | ⟨_, _, rfl⟩ | ⟨hr, hb, _, hv, i, u, hd, hx, rfl⟩ | ⟨_, _, _, _, _, rfl⟩ |
    ⟨_, _, _, _, rfl⟩
  · exact .inl hr
  · simp at hne
  · rw [advanceHost_dout] at hne
    rcases init_or_read_of_exec_dout hx hne with rfl | ⟨lane, rfl⟩
    · exact .inr ⟨accepts_of_cmdValid hr hb hv, .inl hd⟩
    · exact .inr ⟨accepts_of_cmdValid hr hb hv, .inr ⟨lane, hd⟩⟩
  · simp at hne
  · simp at hne

end Sys2Proof.Machine
end

section
/-! The status word (R93, R94): each field is cut out of the concatenation that builds it. -/

namespace Sys2Proof.Machine

open Sys2Proof

/-- The status word with its width as the sum of its fields' widths, the form the library's laws of `++` speak of. -/
def statusFields (s : State) : BitVec (11 + 5 + 8 + 1 + 3 + 1 + 1 + 2) :=
  0#11 ++ BitVec.ofNat 5 s.round.val ++ BitVec.ofNat 8 s.cursor.val ++ 0#1 ++ s.err.code
    ++ BitVec.ofBool s.digestValid ++ BitVec.ofBool s.cmdReady ++ s.phase.code

theorem extractLsb'_status (s : State) (start len : Nat) :
    s.status.extractLsb' start len = (statusFields s).extractLsb' start len := rfl

theorem getLsbD_status (s : State) (i : Nat) : s.status.getLsbD i = (statusFields s).getLsbD i := rfl

theorem status_phase (s : State) : s.status.extractLsb' 0 2 = s.phase.code := by
  rw [extractLsb'_status, statusFields]
  simp (disch := decide) only [BitVec.extractLsb'_append_eq_of_add_le]
  exact BitVec.extractLsb'_eq_self

theorem status_err (s : State) : s.status.extractLsb' 4 3 = s.err.code := by
  rw [extractLsb'_status, statusFields]
  simp (disch := decide) only [BitVec.extractLsb'_append_eq_of_le, BitVec.extractLsb'_append_eq_of_add_le]
  exact BitVec.extractLsb'_eq_self

theorem status_cursor (s : State) : s.status.extractLsb' 8 8 = BitVec.ofNat 8 s.cursor.val := by
  rw [extractLsb'_status, statusFields]
  simp (disch := decide) only [BitVec.extractLsb'_append_eq_of_le, BitVec.extractLsb'_append_eq_of_add_le]
  exact BitVec.extractLsb'_eq_self

theorem status_round (s : State) : s.status.extractLsb' 16 5 = BitVec.ofNat 5 s.round.val := by
  rw [extractLsb'_status, statusFields]
  simp (disch := decide) only [BitVec.extractLsb'_append_eq_of_le, BitVec.extractLsb'_append_eq_of_add_le]
  exact BitVec.extractLsb'_eq_self

theorem status_reserved_high (s : State) : s.status.extractLsb' 21 11 = 0#11 := by
  rw [extractLsb'_status, statusFields]
  simp (disch := decide) only [BitVec.extractLsb'_append_eq_of_le]
  exact BitVec.extractLsb'_eq_self

theorem status_ready (s : State) : s.status.getLsbD 2 = s.cmdReady := by
  rw [getLsbD_status, statusFields]
  simp only [BitVec.getLsbD_append]
  simp

theorem status_digestValid (s : State) : s.status.getLsbD 3 = s.digestValid := by
  rw [getLsbD_status, statusFields]
  simp only [BitVec.getLsbD_append]
  simp

theorem status_reserved_bit (s : State) : s.status.getLsbD 7 = false := by
  rw [getLsbD_status, statusFields]
  simp only [BitVec.getLsbD_append]
  simp

/-- Settles O43: the fields cut out above, with their codes and values; the cursor and the round fit their fields. -/
theorem statusWordFields : Obligations.StatusWordFields := by
  intro s
  refine ⟨?phase, status_ready s, status_digestValid s, status_digestValid s, ?err, status_reserved_bit s, ?cursor,
    ?round, status_reserved_high s⟩
  case phase => rw [status_phase]; cases s.phase <;> rfl
  case err => rw [status_err]; cases s.err <;> rfl
  case cursor => rw [status_cursor, BitVec.toNat_ofNat]; omega
  case round => rw [status_round, BitVec.toNat_ofNat]; omega

end Sys2Proof.Machine
end

section
/-! The step mappings of a round (R122 to R130), bit by bit and by the lanes they move. -/

namespace Sys2Proof.Machine

open Sys2Proof

/-- A lane read by its index is the lane at its coordinates (R31). -/
theorem getElem_eq_laneAt (S : Lanes) (i : Fin 25) : S[i] = laneAt S (laneX i) (laneY i) := by
  simp only [laneAt, laneIndex_laneX_laneY]

@[simp] theorem laneAt_replicate (v : Lane) (x y : Fin 5) : laneAt (Vector.replicate 25 v) x y = v := by
  simp [laneAt]

@[simp] theorem laneAt_iota (S : Lanes) (r : Fin 24) (x y : Fin 5) :
    laneAt (iota S r) x y = if x = 0 ∧ y = 0 then laneAt S x y ^^^ roundConstant r else laneAt S x y := by
  simp [iota]

theorem getLsbD_columnParity (S : Lanes) (x : Fin 5) (z : Nat) :
    (columnParity S x).getLsbD z = ((laneAt S x 0).getLsbD z ^^ (laneAt S x 1).getLsbD z ^^
      (laneAt S x 2).getLsbD z ^^ (laneAt S x 3).getLsbD z ^^ (laneAt S x 4).getLsbD z) := by
  simp only [columnParity, BitVec.getLsbD_xor]

/-- The effect lane's second parity is of the column one bit below, round the lane (R123). -/
theorem getLsbD_thetaEffect (S : Lanes) (x : Fin 5) {z : Nat} (hz : z < 64) :
    (thetaEffect S x).getLsbD z =
      ((columnParity S (x - 1)).getLsbD z ^^ (columnParity S (x + 1)).getLsbD ((z + 63) % 64)) := by
  rw [thetaEffect, BitVec.getLsbD_xor, getLsbD_rotl64 _ (by decide) hz]

/-- θ is the identity where no effect lane has a bit set (R124). -/
theorem theta_eq_self {S : Lanes} (h : ∀ x, thetaEffect S x = 0#64) : theta S = S :=
  lanes_ext fun x y => by rw [laneAt_theta, h, BitVec.xor_zero]

/-- Settles O26: `par` is the bits of the parity lanes, and where all of them are 0 every effect lane is 0. -/
theorem thetaXorsTwoColumnParities : Obligations.ThetaXorsTwoColumnParities := by
  intro S par hpar
  have hC (x : Fin 5) (z : Nat) : (columnParity S x).getLsbD z = par x z :=
    (getLsbD_columnParity S x z).trans (hpar x z).symm
  have hD (x : Fin 5) {z : Nat} (hz : z < 64) :
      (thetaEffect S x).getLsbD z = (par (x - 1) z ^^ par (x + 1) ((z + 63) % 64)) := by
    rw [getLsbD_thetaEffect S x hz, hC, hC]
  refine ⟨fun x y z hz => ⟨hC x z, hD x hz, ?lane⟩, fun hzero => theta_eq_self fun x => ?effect⟩
  case lane => rw [laneAt_theta, BitVec.getLsbD_xor, hD x hz]
  case effect =>
    refine BitVec.eq_of_getLsbD_eq fun z hz => ?_
    rw [hD x hz, hzero _ _ hz, hzero _ _ (Nat.mod_lt _ (by decide))]
    simp

theorem rotOffset_lt : ∀ x y : Fin 5, rotOffset x y < 64 := by decide

/-- Settles O28: each lane is rotated by an offset of 0..63, the origin lane by 0. -/
theorem rhoRotatesEachLane : Obligations.RhoRotatesEachLane := by
  intro S
  have horigin : rotOffset 0 0 = 0 := rfl
  refine ⟨by rw [laneAt_rho, horigin, rotl64_zero], fun x y z hz => ⟨rotOffset_lt x y, ?_⟩⟩
  rw [laneAt_rho, getLsbD_rotl64 _ (Nat.le_of_lt_succ (rotOffset_lt x y)) hz]

/-- The lane permutation that undoes π: lane (x, y) comes back from (y, 2x + 3y) (R127). -/
def piInverse (S : Lanes) : Lanes := tabulate fun x y => laneAt S y (2 * x + 3 * y)

@[simp] theorem laneAt_piInverse (S : Lanes) (x y : Fin 5) :
    laneAt (piInverse S) x y = laneAt S y (2 * x + 3 * y) := laneAt_tabulate _ x y

/-- The lane at (x, y) moves to (y, 2x + 3y), where x = y + 3(2x + 3y) modulo 5 (R127). -/
theorem laneAt_pi_moved (S : Lanes) (x y : Fin 5) : laneAt (pi S) y (2 * x + 3 * y) = laneAt S x y := by
  have hcol : ∀ x y : Fin 5, y + 3 * (2 * x + 3 * y) = x := by decide
  rw [laneAt_pi, hcol]

theorem piInverse_pi (S : Lanes) : piInverse (pi S) = S :=
  lanes_ext fun x y => by rw [laneAt_piInverse, laneAt_pi_moved]

theorem pi_piInverse (S : Lanes) : pi (piInverse S) = S := by
  have hrow : ∀ x y : Fin 5, 2 * (x + 3 * y) + 3 * x = y := by decide
  exact lanes_ext fun x y => by rw [laneAt_pi, laneAt_piInverse, hrow]

/-- Settles O29: the two formulas, the table from the first one, and the inverse. -/
theorem piMovesLanes : Obligations.PiMovesLanes := by
  refine ⟨fun S x y => ⟨laneAt_pi S x y, laneAt_pi_moved S x y⟩, fun S i => ?table,
    Function.bijective_iff_has_inverse.mpr ⟨piInverse, piInverse_pi, pi_piInverse⟩⟩
  case table =>
    have hsource : ∀ i : Fin 25, laneIndex (laneX i + 3 * laneY i) (laneX i) =
        (#v[0, 6, 12, 18, 24, 3, 9, 10, 16, 22, 1, 7, 13, 19, 20, 4, 5, 11, 17, 23, 2, 8, 14, 15, 21]
          : Vector (Fin 25) 25)[i] := by decide
    rw [getElem_eq_laneAt, laneAt_pi]
    exact congrArg (fun j : Fin 25 => S[j]) (hsource i)

/-- χ keeps a state whose lanes are all the same v: ¬v ∧ v is 0 in every bit (R128). -/
theorem chi_replicate (v : Lane) : chi (Vector.replicate 25 v) = Vector.replicate 25 v := by
  have hand : ~~~v &&& v = 0#64 := by simp
  exact lanes_ext fun x y => by simp only [laneAt_chi, laneAt_replicate, hand, BitVec.xor_zero]

/-- Settles O30: the row's formula in bit z, and the two states of equal lanes. -/
theorem chiCombinesRows : Obligations.ChiCombinesRows := by
  refine ⟨fun S x y z hz => ?_, chi_replicate 0, chi_replicate (BitVec.allOnes 64)⟩
  rw [laneAt_chi, BitVec.getLsbD_xor, BitVec.getLsbD_and, BitVec.getLsbD_not, decide_eq_true hz, Bool.true_and]

/-- Settles O31, from the lanes of ι. -/
theorem iotaXorsTheOriginLane : Obligations.IotaXorsTheOriginLane := by
  refine fun S r => ⟨by simp, fun x y hne => ?_⟩
  have hoff : ¬ (x = 0 ∧ y = 0) := fun ⟨hx, hy⟩ => hne (by rw [hx, hy])
  rw [laneAt_iota, if_neg hoff]

/-- Settles O27: the table's entries are closed facts. -/
theorem rotationTableFollowsTheWalk : Obligations.RotationTableFollowsTheWalk :=
  ⟨rfl, by decide, by decide, by decide⟩

/-- Settles O32: the table's rows, and each of the 24 constants against the LFSR. -/
theorem roundConstantsFollowTheLfsr : Obligations.RoundConstantsFollowTheLfsr :=
  ⟨rfl, by decide⟩

/-! The zero state through the steps of a round: only ι changes it. -/

@[simp] theorem rotl64_zero_lane (n : Nat) : rotl64 0#64 n = 0#64 := by simp [rotl64]

theorem theta_zero : theta (Vector.replicate 25 0) = Vector.replicate 25 0 :=
  theta_eq_self fun x => by simp [thetaEffect, columnParity]

theorem rho_zero : rho (Vector.replicate 25 0) = Vector.replicate 25 0 :=
  lanes_ext fun x y => by simp only [laneAt_rho, laneAt_replicate, BitVec.ofNat_eq_ofNat, rotl64_zero_lane]

/-- π keeps a state whose lanes are all the same. -/
theorem pi_replicate (v : Lane) : pi (Vector.replicate 25 v) = Vector.replicate 25 v :=
  lanes_ext fun x y => by simp only [laneAt_pi, laneAt_replicate]

/-- The rounds in sequence are a fold of `Round` over their indices (R120). -/
theorem keccakRounds_eq_foldl (S : Lanes) (rs : List (Fin 24)) : keccakRounds S rs = rs.foldl keccakRound S := by
  induction rs generalizing S with
  | nil => rfl
  | cons r rs ih => exact ih (keccakRound S r)

theorem keccakF_eq_foldl (S : Lanes) : keccakF S = (List.finRange 24).foldl keccakRound S :=
  keccakRounds_eq_foldl S _

/-- Settles O33; on the zero state the first round is ι with `RC[0]` = 1. -/
theorem keccakIsTwentyFourRounds : Obligations.KeccakIsTwentyFourRounds := by
  refine ⟨fun _ _ => rfl, keccakF_eq_foldl, ?zero⟩
  case zero =>
    rw [keccakRound, theta_zero, rho_zero, pi_replicate, chi_replicate]
    rfl

end Sys2Proof.Machine
end

section
/-! The engine (R133 to R135): one edge is one round, and up to 24 edges from round 0 are as many rounds. -/

namespace Sys2Proof.Machine

open Sys2Proof

theorem toPhase_eq_ite (n : NextPhase) : n.toPhase = if n = .squeeze then .squeeze else .absorb := by
  cases n <;> rfl

/-- The round counter counts modulo 24. -/
theorem engineRound_round_val (s : State) : (engineRound s).round.val = (s.round.val + 1) % 24 := by
  rw [engineRound_round]
  split
  · next h => rw [h]; rfl
  · rw [Fin.val_add]; rfl

theorem not_accepts_of_busy {s : State} (hb : s.phase = .busy) : s.accepts = false := by
  simp [State.accepts, State.cmdReady, hb]

/-- Settles O40: the engine's edge is `engineRound` with the host moved on. -/
theorem engineEdgePerformsOneRound : Obligations.EngineEdgePerformsOneRound := by
  intro s hr hb
  refine ⟨not_accepts_of_busy hb, _, step_busy hr hb, by simp, ?progress, by simp, by simp, by simp, by simp⟩
  case progress =>
    rw [advanceHost_phase, advanceHost_round, engineRound_phase]
    split
    · next hlast => exact ⟨toPhase_eq_ite s.next, by rw [engineRound_round, if_pos hlast]⟩
    · next hlast =>
      have hval : s.round.val ≠ 23 := fun h => hlast (Fin.ext h)
      exact ⟨hb, by rw [engineRound_round_val]; omega⟩

/-- u is s, found in BUSY at round 0, after k of the engine's 24 rounds (R134); the host's moves are left open. -/
structure EngineRan (s : State) (k : Nat) (u : State) : Prop where
  lanes : u.A = ((List.finRange 24).take k).foldl keccakRound s.A
  phase : u.phase = if k < 24 then .busy else s.next.toPhase
  round : u.round.val = k % 24
  next : u.next = s.next
  cursor : u.cursor = s.cursor
  err : u.err = s.err
  dout : u.dout = s.dout

theorem engineRan_zero {s : State} (hb : s.phase = .busy) (h0 : s.round = 0) : EngineRan s 0 s where
  lanes := rfl
  phase := hb
  round := by rw [h0]; rfl
  next := rfl
  cursor := rfl
  err := rfl
  dout := rfl

/-- The first k + 1 rounds are the first k and round k. -/
theorem foldl_take_succ (S : Lanes) (r : Fin 24) :
    ((List.finRange 24).take (r.val + 1)).foldl keccakRound S =
      keccakRound (((List.finRange 24).take r.val).foldl keccakRound S) r := by
  have hr : r.val < (List.finRange 24).length := by simp
  rw [List.take_succ_eq_append_getElem hr, List.foldl_append, List.getElem_finRange]
  rfl

/-- The engine's edge takes k rounds to k + 1. -/
theorem EngineRan.succ {s u : State} {k : Nat} (h : EngineRan s k u) (hk : k < 24) (hr : u.port.rst = false) :
    ∃ t, step u = .next t ∧ EngineRan s (k + 1) t := by
  obtain ⟨hA, hphase, hround, hnext, hcursor, herr, hdout⟩ := h
  rw [if_pos hk] at hphase
  obtain rfl : k = u.round.val := by rw [hround, Nat.mod_eq_of_lt hk]
  have hlast : u.round = 23 ↔ ¬ u.round.val + 1 < 24 := by omega
  refine ⟨_, step_busy hr hphase, ?lanes, ?phase, ?round, ?_, ?_, ?_, ?_⟩
  case lanes => rw [advanceHost_A, engineRound_A, hA, foldl_take_succ]
  case phase => rw [advanceHost_phase, engineRound_phase, hphase, hnext]; simp only [hlast, ite_not]
  case round => rw [advanceHost_round, engineRound_round_val]
  all_goals simpa

/-- Up to 24 edges with `rst` low are as many rounds (R134). -/
theorem edges_engine {s : State} {n : Nat} (hb : s.phase = .busy) (h0 : s.round = 0) (hn : n ≤ 24)
    (hr : s.RstLow n) : ∃ u, edges n s = .next u ∧ EngineRan s n u := by
  induction n with
  | zero => exact ⟨s, edges_zero s, engineRan_zero hb h0⟩
  | succ n ih =>
    obtain ⟨u, hu, hran⟩ := ih (by omega) fun j hj => hr j (by omega)
    obtain ⟨t, ht, hran'⟩ := hran.succ (by omega) (hr n (by omega) u hu)
    exact ⟨t, edges_snoc hu ht, hran'⟩

/-- After 24 rounds the lanes are `Keccak_f` of the first ones. -/
theorem EngineRan.lanes_eq_keccakF {s u : State} (h : EngineRan s 24 u) : u.A = keccakF s.A := by
  rw [h.lanes, keccakF_eq_foldl, List.take_of_length_le (by simp)]

/-- PERMUTE with a bit of `cmd[31:4]` set is no legal encoding (R89). -/
theorem illegalFormat_permute_of_field {cmd : CmdWord} (hop : cmdOp cmd = 4) (hfield : cmd.extractLsb' 4 28 ≠ 0) :
    illegalFormat cmd = true :=
  (illegalFormat_iff cmd).mpr (.inr (.inl ⟨by simp [hop], hfield⟩))

/-- Settles O20: PERMUTE's effect is `enterBusy`, from where the engine's 24 edges run; its two errors. -/
theorem permuteRunsThePermutation : Obligations.PermuteRunsThePermutation := by
  refine ⟨fun s ha => ?runs, fun s cmd din _ hop hfield =>
    execute_of_illegal din s (illegalFormat_permute_of_field hop hfield), fun s hs => ?phase⟩
  case runs =>
    have hexec : exec .permute s = .next (enterBusy .absorb s) :=
      exec_ok (by simp [ha]) (by simp [checkInstr_permute, ha])
    have hword (din : Lane) : decode 0x00000004 din = .ok .permute := decode_eq_permute_iff.mpr rfl
    refine ⟨enterBusy .absorb s, hexec, rfl, fun din => (execute_of_decode s (hword din)).trans hexec, fun hr => ?_⟩
    obtain ⟨u, hu, hran⟩ := edges_engine rfl rfl le_rfl hr
    exact ⟨u, hu, hran.lanes_eq_keccakF, hran.phase, hran.cursor, hran.err, hran.dout⟩
  case phase =>
    have hcheck : checkInstr .permute s = .phase := by simp [checkInstr_permute, hs]
    rw [exec_error (by simp [hs]) (by simp [hcheck]), hcheck]

end Sys2Proof.Machine
end

section
/-! The sponge's commands (R160 to R167): the word of each, its illegal words, its effect, and what SQUEEZE allows. -/

namespace Sys2Proof.Machine

open Sys2Proof

/-- A command that fails a check records that error. -/
theorem exec_of_checkInstr {i : Instr} {s : State} {e : ErrCode} (hb : s.phase ≠ .busy) (hc : checkInstr i s = e)
    (he : e ≠ .none) : exec i s = .next (raiseCmdError e s) := by
  subst hc
  exact exec_error hb he

/-- A command with no field is ILLEGAL where its word has a bit above OP (R89). -/
theorem execute_of_bits_above_op {cmd : CmdWord} (din : Lane) (s : State)
    (hop : cmdOp cmd = 0 ∨ cmdOp cmd = 1 ∨ cmdOp cmd = 3) (hfield : cmd.extractLsb' 4 28 ≠ 0) :
    execute cmd din s = .next (raiseCmdError .illegal s) := by
  have hplain : (cmdOp cmd).toNat = 0 ∨ (cmdOp cmd).toNat = 1 ∨ (cmdOp cmd).toNat = 3 ∨ (cmdOp cmd).toNat = 4 := by
    rcases hop with hop | hop | hop <;> simp [hop]
  exact execute_of_illegal din s ((illegalFormat_iff cmd).mpr (.inr (.inl ⟨hplain, hfield⟩)))

/-! ## NOP and INIT -/

theorem exec_nop {s : State} (hb : s.phase ≠ .busy) : exec .nop s = .next s := exec_ok hb (checkInstr_nop s)

/-- NOP's word runs NOP, whatever `din` (R88, R160). -/
theorem execute_nopWord (din : Lane) {s : State} (hb : s.phase ≠ .busy) : execute 0x00000000 din s = .next s :=
  (execute_of_decode s (decode_eq_nop_iff.mpr rfl)).trans (exec_nop hb)

/-- The edge that accepts NOP only moves the host on. -/
theorem step_of_nop {s : State} (hr : s.port.rst = false) (hl : s.legal = true) (hb : s.phase ≠ .busy)
    (hv : s.port.cmdValid = true) (hcmd : s.port.cmd = 0x00000000) : step s = .next (advanceHost true s) := by
  rw [step_accept hr hl hb hv, hcmd, execute_nopWord _ hb, mapNext]

theorem step_drive_nop {s : State} (din : Lane) (rest : List HostMove) (hb : s.phase ≠ .busy) (hl : s.legal = true) :
    step { s with script := .drive { rst := false, cmdValid := true, cmd := 0, din := din } :: rest } =
      .next { s with script := rest } :=
  step_of_nop rfl hl hb rfl rfl

/-- Settles O13: the edges of NOP and of an idle port both move the host on and do nothing else. -/
theorem nopChangesNothing : Obligations.NopChangesNothing := by
  intro s hb
  refine ⟨exec_nop hb, fun din => execute_nopWord din hb,
    fun cmd din hop => execute_of_bits_above_op din s (.inl hop), fun hl din rest => ⟨?accepted, rfl, ?sameStep⟩⟩
  case accepted => exact accepts_of_cmdValid rfl hb rfl
  case sameStep => rw [step_drive_nop din rest hb hl, step_drive_idle rest rfl hb hl rfl]

/-- Settles O14: INIT's effect is `clearRegisters`, field by field. -/
theorem initClearsEveryRegister : Obligations.InitClearsEveryRegister := by
  intro s hb
  have hexec : exec .init s = .next (clearRegisters s) := exec_ok hb (checkInstr_init s)
  have hword (din : Lane) : decode 0x00000001 din = .ok .init := decode_eq_init_iff.mpr rfl
  refine ⟨⟨clearRegisters s, hexec, fun i => ?lanes, rfl, rfl, rfl, rfl, rfl, rfl, rfl,
    fun din => (execute_of_decode s (hword din)).trans hexec⟩,
    fun cmd din hop => execute_of_bits_above_op din s (.inr (.inl hop))⟩
  case lanes => simp

/-! ## SQUEEZE -/

/-- In SQUEEZE the commands of ABSORB only fail the phase check (R203). -/
theorem exec_absorbOnly_of_squeeze {i : Instr} {s : State} (hs : s.phase = .squeeze) (hwf : i.wf = true)
    (hi : absorbOnly i = true) : exec i s = .next (raiseCmdError .phase s) :=
  exec_of_checkInstr (by simp [hs]) (by simp [checkInstr, hwf, hi, hs]) nofun

/-- In SQUEEZE no ABSORB, FINAL or PERMUTE passes its checks, whatever its operands (R203). -/
theorem checkInstr_absorbOnly_ne_none_of_squeeze {i : Instr} {s : State} (hs : s.phase = .squeeze)
    (hi : absorbOnly i = true) : checkInstr i s ≠ .none := by
  unfold checkInstr
  split
  · nofun
  · simp [hi, hs]

/-- A command that passes its checks in SQUEEZE is one of the three that R167 allows. -/
theorem nop_or_init_or_read_of_squeeze {i : Instr} {s : State} (hs : s.phase = .squeeze)
    (hc : checkInstr i s = .none) : i = .nop ∨ i = .init ∨ ∃ lane, i = .read lane := by
  cases i with
  | nop => exact .inl rfl
  | init => exact .inr (.inl rfl)
  | read lane => exact .inr (.inr ⟨lane, rfl⟩)
  | absorb n din | final | permute => exact absurd hc (checkInstr_absorbOnly_ne_none_of_squeeze hs rfl)

/-- In SQUEEZE only INIT changes the lanes or the phase (R167). -/
theorem exec_keeps_squeeze {i : Instr} {s t : State} (hs : s.phase = .squeeze) (hinit : i ≠ .init)
    (h : exec i s = .next t) : t.phase = .squeeze ∧ t.A = s.A := by
  rcases exec_cases h with ⟨_, rfl⟩ | ⟨_, hc, rfl⟩ | ⟨_, _, rfl⟩
  · exact ⟨hs, rfl⟩
  · rcases nop_or_init_or_read_of_squeeze hs hc with rfl | rfl | ⟨lane, rfl⟩
    · exact ⟨hs, rfl⟩
    · exact absurd rfl hinit
    · exact ⟨hs, rfl⟩
  · exact ⟨by rw [raiseCmdError_phase, hs], raiseCmdError_A _ s⟩

/-- The edges that leave SQUEEZE or its lanes are a reset and an accepted INIT (R167). -/
theorem step_from_squeeze {s t : State} (hs : s.phase = .squeeze) (h : step s = .next t) :
    s.port.rst = true ∨ (s.accepts = true ∧ decode s.port.cmd s.port.din = .ok .init) ∨
      (t.phase = .squeeze ∧ t.A = s.A) := by
  rcases step_cases h with ⟨hr, _⟩ | ⟨_, hb, _⟩ | ⟨hr, hb, _, hv, i, u, hd, hx, rfl⟩ | ⟨_, _, _, _, _, rfl⟩ |
    ⟨_, _, _, _, rfl⟩
  · exact .inl hr
  · rw [hs] at hb; cases hb
  · by_cases hinit : i = .init
    · exact .inr (.inl ⟨accepts_of_cmdValid hr hb hv, hinit ▸ hd⟩)
    · simpa using Or.inr (Or.inr (exec_keeps_squeeze hs hinit hx))
  · simp [hs]
  · simp [hs]

/-- Settles O47: the checks in SQUEEZE, and the digest ports, which follow from the phase and the lanes. -/
theorem squeezeIsTerminal : Obligations.SqueezeIsTerminal := by
  refine ⟨fun s i hs hwf => ⟨⟨nop_or_init_or_read_of_squeeze hs, ?passes⟩, ?fails⟩, fun s t hs hstep => ?stays⟩
  case passes =>
    rintro (rfl | rfl | ⟨lane, rfl⟩)
    · exact checkInstr_nop s
    · exact checkInstr_init s
    · have hlane : lane.toNat < 25 := by simpa [Instr.wf] using hwf
      rw [checkInstr_read, if_pos hlane]
  case fails =>
    rintro (rfl | rfl | ⟨n, din, rfl⟩) <;> exact exec_absorbOnly_of_squeeze hs hwf rfl
  case stays =>
    rcases step_from_squeeze hs hstep with hr | hinit | ⟨hphase, hA⟩
    · exact .inl hr
    · exact .inr (.inl hinit)
    · exact .inr (.inr ⟨hphase, hA, by simp only [State.digest, hA], by simp [State.digestValid, hphase]⟩)

/-! ## ABSORB -/

/-- The bits of ABSORB's word (R85, R88). -/
theorem absorbWord_eq_encodeCmd (n : BitVec 4) (din : Lane) :
    (n.setWidth 32 <<< 4) ||| 0x2#32 = encodeCmd (.absorb n din) := by
  have h : ∀ n : BitVec 4, (n.setWidth 32 <<< 4) ||| 0x2#32 = cmdWord 2 n 0 := by decide
  exact h n

theorem wf_absorb {n : BitVec 4} (din : Lane) (h1 : 1 ≤ n.toNat) (h8 : n.toNat ≤ 8) :
    (Instr.absorb n din).wf = true := by
  simp [Instr.wf, h1, h8]

/-- ABSORB with a bad byte count or a bit above N is ILLEGAL (R86, R89). -/
theorem execute_absorb_illegal {cmd : CmdWord} (din : Lane) (s : State) (hop : cmdOp cmd = 2)
    (h : (cmdN cmd).toNat = 0 ∨ (cmdN cmd).toNat > 8 ∨ cmd.extractLsb' 8 24 ≠ 0) :
    execute cmd din s = .next (raiseCmdError .illegal s) :=
  execute_of_illegal din s ((illegalFormat_iff cmd).mpr (.inr (.inr (.inl ⟨by simp [hop], by tauto⟩))))

@[simp] theorem absorbEffect_err (n : BitVec 4) (din : Lane) (s : State) : (absorbEffect n din s).err = s.err := by
  unfold absorbEffect
  split <;> rfl

@[simp] theorem absorbEffect_dout (n : BitVec 4) (din : Lane) (s : State) :
    (absorbEffect n din s).dout = s.dout := by
  unfold absorbEffect
  split <;> rfl

@[simp] theorem absorbEffect_script (n : BitVec 4) (din : Lane) (s : State) :
    (absorbEffect n din s).script = s.script :=
  effectOf_script (.absorb n din) s

/-- ABSORB's two ends: the block is full and the engine starts, or the cursor advances (R162, R163). -/
theorem absorbEffect_control {n : BitVec 4} {s : State} (din : Lane) (hfit : s.cursor.val + n.toNat ≤ 136) :
    if s.cursor.val + n.toNat = 136 then
      (absorbEffect n din s).cursor = 0 ∧ (absorbEffect n din s).phase = .busy ∧
        (absorbEffect n din s).next = .absorb ∧ (absorbEffect n din s).round = 0
    else
      (absorbEffect n din s).cursor.val = s.cursor.val + n.toNat ∧ (absorbEffect n din s).phase = s.phase ∧
        (absorbEffect n din s).next = s.next ∧ (absorbEffect n din s).round = s.round := by
  split
  · next hfull =>
    rw [absorbEffect_full hfull]
    exact ⟨rfl, rfl, rfl, rfl⟩
  · next hnotfull =>
    rw [absorbEffect_partial (by omega)]
    exact ⟨rfl, rfl, rfl, rfl⟩

/-- An ABSORB that fits the block has its effect (R162). -/
theorem exec_absorb {s : State} {n : BitVec 4} (din : Lane) (ha : s.phase = .absorb) (h1 : 1 ≤ n.toNat)
    (h8 : n.toNat ≤ 8) (hfit : s.cursor.val + n.toNat ≤ 136) :
    exec (.absorb n din) s = .next (absorbEffect n din s) :=
  exec_ok (by simp [ha]) (by simp [checkInstr_absorb, h1, h8, ha, hfit])

/-- An ABSORB that would pass the end of the block is an OVERRUN (R204). -/
theorem exec_absorb_overrun {s : State} {n : BitVec 4} (din : Lane) (ha : s.phase = .absorb) (h1 : 1 ≤ n.toNat)
    (h8 : n.toNat ≤ 8) (hover : s.cursor.val + n.toNat > 136) :
    exec (.absorb n din) s = .next (raiseCmdError .overrun s) :=
  exec_of_checkInstr (by simp [ha]) (by simp [checkInstr_absorb, h1, h8, ha, hover]) nofun

/-- Settles O15: the bytes are those of `absorbLanes`, the rest the two ends of ABSORB; then its three errors. -/
theorem absorbXorsItsBytes : Obligations.AbsorbXorsItsBytes := by
  refine ⟨fun s n din ha h1 h8 hfit => ?absorbs, fun s cmd din _ => execute_absorb_illegal din s,
    fun s n din h1 h8 => ⟨fun hs => exec_absorbOnly_of_squeeze hs (wf_absorb din h1 h8) rfl,
      fun ha => exec_absorb_overrun din ha h1 h8⟩⟩
  case absorbs =>
    have hexec := exec_absorb din ha h1 h8 hfit
    have hword : decode ((n.setWidth 32 <<< 4) ||| 0x2#32) din = .ok (.absorb n din) := by
      rw [absorbWord_eq_encodeCmd n din]
      exact decode_encodeCmd (wf_absorb din h1 h8) fun _ _ e => (Instr.absorb.inj e).2.symm
    have hcontrol := absorbEffect_control din hfit
    rw [ha] at hcontrol
    refine ⟨absorbEffect n din s, hexec, (execute_of_decode s hword).trans hexec, fun k => ?bytes, hcontrol,
      absorbEffect_err n din s, absorbEffect_dout n din s, absorbEffect_script n din s⟩
    case bytes =>
      rw [absorbEffect_A]
      exact sbyte_absorbLanes n din s k

/-! ## FINAL -/

/-- Settles O18: FINAL pads the lanes and enters BUSY; then its two errors. -/
theorem finalPadsAndStartsTheEngine : Obligations.FinalPadsAndStartsTheEngine := by
  refine ⟨fun s ha => ?pads, fun s cmd din _ hop => execute_of_bits_above_op din s (.inr (.inr hop)),
    fun s hs => exec_absorbOnly_of_squeeze hs rfl rfl⟩
  case pads =>
    have hexec : exec .final s = .next (effectOf .final s) := exec_ok (by simp [ha]) (by simp [checkInstr_final, ha])
    have hword (din : Lane) : decode 0x00000003 din = .ok .final := decode_eq_final_iff.mpr rfl
    exact ⟨effectOf .final s, hexec, sbyte_padLanes s, rfl, rfl, rfl, rfl, rfl, rfl, rfl,
      fun din => (execute_of_decode s (hword din)).trans hexec⟩

/-! ## READ -/

/-- The bits of READ's word (R85, R88). -/
theorem readWord_eq_encodeCmd (lane : BitVec 5) : (lane.setWidth 32 <<< 8) ||| 0x5#32 = encodeCmd (.read lane) := by
  have h : ∀ lane : BitVec 5, (lane.setWidth 32 <<< 8) ||| 0x5#32 = cmdWord 5 0 lane := by decide
  exact h lane

/-- READ copies its lane to `dout` (R166). -/
theorem exec_read {s : State} {lane : BitVec 5} (hb : s.phase ≠ .busy) (h : lane.toNat < 25) :
    exec (.read lane) s = .next { s with dout := s.A[lane.toNat] } := by
  have hselect : selectLane s.A lane = s.A[lane.toNat] := dif_pos h
  rw [exec_ok hb (by rw [checkInstr_read, if_pos h]), ← hselect]
  rfl

/-- READ of a lane above 24, or with a bit of N or RSV set, is ILLEGAL (R87, R89). -/
theorem execute_read_illegal {cmd : CmdWord} (din : Lane) (s : State) (hop : cmdOp cmd = 5)
    (h : (cmdLane cmd).toNat > 24 ∨ cmdN cmd ≠ 0 ∨ cmdRsv cmd ≠ 0) :
    execute cmd din s = .next (raiseCmdError .illegal s) := by
  have hfield : cmdRsv cmd ≠ 0 ∨ (cmdN cmd).toNat ≠ 0 ∨ (cmdLane cmd).toNat > 24 := by
    rcases h with hlane | hn | hrsv
    · exact .inr (.inr hlane)
    · exact .inr (.inl fun hzero => hn (BitVec.eq_of_toNat_eq hzero))
    · exact .inl hrsv
  exact execute_of_illegal din s ((illegalFormat_iff cmd).mpr (.inr (.inr (.inr ⟨by simp [hop], hfield⟩))))

/-- Settles O19: READ's effect, by name and by word, and its illegal words. -/
theorem readCopiesTheLane : Obligations.ReadCopiesTheLane := by
  intro s hb
  refine ⟨fun lane h => ⟨exec_read hb h, fun din => ?word⟩, fun cmd din => execute_read_illegal din s⟩
  case word =>
    have hwf : (Instr.read lane).wf = true := by simpa [Instr.wf] using h
    rw [readWord_eq_encodeCmd, execute_of_decode s (decode_encodeCmd hwf nofun), exec_read hb h]

end Sys2Proof.Machine
end

section
/-! Errors (R200, R204, R207, R210): a failed command records its error and nothing else, and what clears `err`. -/

namespace Sys2Proof.Machine

open Sys2Proof

/-! ## A failed command -/

/-- Recording an error writes no register but `err` (R207). -/
theorem raiseCmdError_eq_withErr (e : ErrCode) (s : State) :
    raiseCmdError e s = { s with err := (raiseCmdError e s).err } := by
  unfold raiseCmdError
  split <;> rfl

/-- A word that fails its checks records the error they give (R207, R208). -/
theorem execute_of_failedCheck {cmd : CmdWord} (din : Lane) {s : State} (hb : s.phase ≠ .busy)
    (hc : checkCmd cmd s ≠ .none) : execute cmd din s = .next (raiseCmdError (checkCmd cmd s) s) := by
  obtain ⟨-, hexec⟩ := executeChecksThenDispatches s cmd din hb
  exact hexec.trans (if_pos hc)

/-- The edge that accepts a word failing its checks records the error and moves the host on. -/
theorem step_of_failedCheck {s : State} (hl : s.legal = true) (ha : s.accepts = true)
    (hc : checkCmd s.port.cmd s ≠ .none) :
    step s = .next (advanceHost true (raiseCmdError (checkCmd s.port.cmd s) s)) := by
  obtain ⟨hr, hb, hv⟩ := (accepts_iff s).mp ha
  rw [step_accept hr hl hb hv, execute_of_failedCheck _ hb hc, mapNext]

/-- Settles O8, from what recording an error does to each field. -/
theorem firstErrorIsKept : Obligations.FirstErrorIsKept := by
  intro s cmd din hb hc
  refine ⟨_, execute_of_failedCheck din hb hc, fun hnone => ?first, fun hsome => ?later, by simp, by simp, by simp,
    by simp, by simp, by simp, by simp⟩
  case first => rw [raiseCmdError_err, if_pos hnone]
  case later => rw [raiseCmdError_err, if_neg hsome]

/-- Settles O11: an ABSORB that overruns the block only records its error. -/
theorem overrunWritesNothing : Obligations.OverrunWritesNothing := by
  intro s n din ha hwf hover
  obtain ⟨h1, h8⟩ : 1 ≤ n.toNat ∧ n.toNat ≤ 8 := by simpa [Instr.wf] using hwf
  exact ⟨_, exec_absorb_overrun din ha h1 h8 hover, raiseCmdError_err _ s, fun k => by rw [raiseCmdError_A],
    raiseCmdError_cursor _ s, raiseCmdError_eq_withErr _ s⟩

/-- Settles O48: a legal state has one of R82's four edges, and a failed command leaves the phase and the round, so
the block is legal and ready as before. -/
theorem errorsNeverStopTheBlock : Obligations.ErrorsNeverStopTheBlock := by
  refine ⟨fun s hl => ?steps, fun s hl ha hc => ⟨_, step_of_failedCheck hl ha hc, ?registers, ?legal, fun hr => ?ready⟩⟩
  case steps =>
    obtain ⟨-, t, hstep, -⟩ := clockEdgeDoesOneOfFourThings s hl
    exact ⟨t, hstep⟩
  case registers => simp [sameRegisters_iff]
  case legal => simpa [State.legal] using hl
  case ready =>
    obtain ⟨-, hb, -⟩ := (accepts_iff s).mp ha
    exact (cmdReady_iff _).mpr ⟨hr, by simpa using hb⟩

/-! ## What clears `err` -/

/-- Every effect but INIT's reads and writes the other registers only, and passes `err` through (R210). -/
theorem effectOf_withErr {i : Instr} (s : State) (e : ErrCode) (hinit : i ≠ .init) :
    effectOf i { s with err := e } = { effectOf i s with err := e } := by
  cases i with
  | init => exact absurd rfl hinit
  | absorb n din =>
    simp only [effectOf, absorbEffect]
    split <;> rfl
  | nop | final | permute | read lane => rfl

theorem effectOf_err_of_ne_init {i : Instr} (s : State) (hinit : i ≠ .init) : (effectOf i s).err = s.err := by
  have hsame := congrArg State.err (effectOf_withErr s s.err hinit)
  exact hsame

/-- INIT's effect is the same whatever `err` was: every register is cleared (R161). -/
theorem effectOf_init_withErr (s : State) (e e' : ErrCode) :
    effectOf .init { s with err := e } = effectOf .init { s with err := e' } := rfl

/-- A command that passes its checks passes them whatever `err` holds (R208). -/
theorem exec_withErr {i : Instr} {s : State} (e : ErrCode) (hb : s.phase ≠ .busy) (hc : checkInstr i s = .none) :
    exec i { s with err := e } = .next (effectOf i { s with err := e }) :=
  exec_ok hb (checkInstr_congr i rfl rfl ▸ hc)

/-- A command that changes a recorded error is INIT, and clears it: held or failed it keeps the first error. -/
theorem init_of_exec_err {i : Instr} {s t : State} (herr : s.err ≠ .none) (h : exec i s = .next t)
    (hne : t.err ≠ s.err) : i = .init ∧ t.err = .none := by
  rcases exec_cases h with ⟨_, rfl⟩ | ⟨_, _, rfl⟩ | ⟨_, _, rfl⟩
  · exact absurd rfl hne
  · refine ⟨?_, (effectOf_err i s).resolve_right hne⟩
    by_contra hinit
    exact hne (effectOf_err_of_ne_init s hinit)
  · exact absurd (by rw [raiseCmdError_err, if_neg herr]) hne

/-- An edge that changes a recorded error clears it, and is a reset or accepts INIT (R210). -/
theorem reset_or_init_of_step_err {s t : State} (herr : s.err ≠ .none) (hstep : step s = .next t)
    (hne : t.err ≠ s.err) :
    t.err = .none ∧ (s.port.rst = true ∨ (s.accepts = true ∧ decode s.port.cmd s.port.din = .ok .init)) := by
  rcases step_cases hstep with ⟨hr, rfl⟩ | ⟨_, _, rfl⟩ | ⟨hr, hb, _, hv, i, u, hd, hx, rfl⟩ | ⟨_, _, _, _, _, rfl⟩ |
    ⟨_, _, _, _, rfl⟩
  · exact ⟨by simp, .inl hr⟩
  · simp at hne
  · rw [advanceHost_err] at hne ⊢
    obtain ⟨rfl, hnone⟩ := init_of_exec_err herr hx hne
    exact ⟨hnone, .inr ⟨accepts_of_cmdValid hr hb hv, hd⟩⟩
  · simp [herr] at hne
  · simp at hne

/-- Settles O9: the edges that change a recorded error, the two that clear it, and the effects, which do not read it. -/
theorem errClearedOnlyByInitOrReset : Obligations.ErrClearedOnlyByInitOrReset := by
  refine ⟨fun s t => reset_or_init_of_step_err, fun s hr => ⟨_, step_reset hr, by simp⟩, fun s hl ha hd => ?init,
    fun s i e hb hc => ⟨effectOf i { s with err := .none }, exec_withErr .none hb hc, ?none, ?anyErr⟩⟩
  case init =>
    obtain ⟨hr, hb, hv⟩ := (accepts_iff s).mp ha
    refine ⟨advanceHost true (clearRegisters s), ?_, by simp⟩
    rw [step_accept hr hl hb hv, execute_of_decode s hd, exec_ok hb (checkInstr_init s)]
    rfl
  case none => exact (effectOf_err i { s with err := .none }).elim id id
  case anyErr =>
    rw [exec_withErr e hb hc]
    split
    · next hinit => rw [hinit, effectOf_init_withErr s e .none]
    · next hinit => rw [← effectOf_withErr _ e hinit]

end Sys2Proof.Machine
end

section
/-! Reset (R230): the edge that overrides whatever the phase and the port say. -/

namespace Sys2Proof.Machine

open Sys2Proof

/-- While `rst` is high `cmd_ready` is 0, so the block accepts nothing (R82, R83). -/
theorem accepts_eq_false_of_rst {s : State} (hr : s.port.rst = true) : s.accepts = false := by
  simp [State.accepts, State.cmdReady, hr]

/-- A state with the registers of `State.reset` has the reset value in each of them (R46). -/
theorem reset_values_of_sameRegisters {t : State} (h : t.SameRegisters State.reset) :
    (∀ i : Fin 25, t.A[i] = 0) ∧ t.phase = .absorb ∧ t.next = .absorb ∧ t.round = 0 ∧ t.cursor = 0 ∧
      t.err = .none ∧ t.dout = 0 := by
  obtain ⟨hA, hregs⟩ := sameRegisters_iff.mp h
  exact ⟨fun i => by simp [hA], hregs⟩

/-- Settles O38: the reset edge is tested before the phase and the port, and leaves the registers of `State.reset`. -/
theorem resetOverridesEverything : Obligations.ResetOverridesEverything := fun s hr =>
  ⟨accepts_eq_false_of_rst hr, _, step_reset hr, reset_values_of_sameRegisters (resetEdge_sameRegisters false s)⟩

end Sys2Proof.Machine
end

section
/-! The decoder and the assembler (R88, R89, R97): each is the other's inverse on the well-formed commands. -/

namespace Sys2Proof

/-- The data word beside ABSORB's command word is its own (R97). -/
theorem din_eq_encodeDin {i : Instr} {n : BitVec 4} {d : Lane} (h : i = .absorb n d) : d = encodeDin i := by
  subst h; rfl

/-- Settles O2: the assembler's data word is the one ABSORB is decoded with. -/
theorem decodeOfEncode : Obligations.DecodeOfEncode := fun _ hwf =>
  decode_encodeCmd hwf fun _ _ => din_eq_encodeDin

/-- Settles O3: what the decoder takes is the assembler's, field by field. -/
theorem encodeOfDecode : Obligations.EncodeOfDecode := by
  intro cmd din i h
  obtain ⟨hwf, hword, hdin⟩ := encodeCmd_of_decode h
  exact ⟨hwf, hword, fun n d e => ⟨hdin n d e, (din_eq_encodeDin e).symm.trans (hdin n d e)⟩⟩

/-- Settles O1: the legal words are the assembler's; the others are refused by the first condition that they fail. -/
theorem assembledWordsDecode : Obligations.AssembledWordsDecode := by
  refine ⟨by decide, by decide, fun _ => decode_eq_nop_iff.mpr rfl, fun _ => decode_eq_init_iff.mpr rfl,
    fun _ => decode_eq_absorb_iff.mpr ⟨⟨rfl, rfl⟩, by decide⟩, fun _ => decode_eq_final_iff.mpr rfl,
    fun _ => decode_eq_permute_iff.mpr rfl, fun _ => decode_eq_read_iff.mpr (by decide), ?byteCount, ?lane, ?field, ?op⟩
  case byteCount => exact fun _ => rfl
  case lane => exact fun _ => rfl
  case field => exact fun _ => rfl
  case op => exact fun din => decode_reservedOp din (by decide)

end Sys2Proof
end

section
/-! The invariant (R44): reset meets it, and every edge keeps it. -/

namespace Sys2Proof.Machine

open Sys2Proof

/-- The invariant reads four registers only. -/
theorem State.Inv.congr {s t : State} (h : s.Inv) (hphase : t.phase = s.phase) (hnext : t.next = s.next)
    (hround : t.round = s.round) (hcursor : t.cursor = s.cursor) : t.Inv := by
  simpa only [State.Inv, hphase, hnext, hround, hcursor] using h

theorem State.Inv.advanceHost {s : State} (h : s.Inv) (b : Bool) : (advanceHost b s).Inv :=
  h.congr (by simp) (by simp) (by simp) (by simp)

theorem State.Inv.raiseCmdError {s : State} (h : s.Inv) (e : ErrCode) : (raiseCmdError e s).Inv :=
  h.congr (by simp) (by simp) (by simp) (by simp)

/-- Clearing the registers establishes the invariant from any state (R46). -/
theorem inv_clearRegisters (s : State) : (clearRegisters s).Inv :=
  ⟨fun _ => ⟨rfl, rfl⟩, fun h => nomatch h⟩

/-- Starting the engine establishes the invariant where SQUEEZE is named with the cursor at 0 only (R164). -/
theorem inv_enterBusy {n : NextPhase} {s : State} (h : n = .squeeze → s.cursor = 0) : (enterBusy n s).Inv :=
  ⟨fun hb => absurd rfl hb, h⟩

/-- The engine leaves BUSY for the phase `next` names, with `round` back at 0 (R133). -/
theorem State.Inv.engineRound {s : State} (h : s.Inv) (hb : s.phase = .busy) : (engineRound s).Inv := by
  obtain ⟨-, hcursor⟩ := h
  refine ⟨fun hout => ?_, by simpa using hcursor⟩
  have hlast : s.round = 23 := by
    by_contra hmore
    exact hout (by simp [hmore, hb])
  simp [hlast]

/-- Outside BUSY, where the phase is ABSORB so is `next`. -/
theorem State.Inv.next_of_absorb {s : State} (h : s.Inv) (ha : s.phase = .absorb) : s.next = .absorb := by
  obtain ⟨hphase, -⟩ := h
  obtain ⟨hname, -⟩ := hphase (by simp [ha])
  cases hn : s.next with
  | absorb => rfl
  | squeeze => rw [hn, ha] at hname; cases hname

/-- The PHASE check keeps ABSORB, FINAL and PERMUTE to the phase ABSORB (R203). -/
theorem phase_of_checkInstr {i : Instr} {s : State} (hi : absorbOnly i = true) (hc : checkInstr i s = .none) :
    s.phase = .absorb := by
  by_contra hphase
  unfold checkInstr at hc
  split at hc
  · cases hc
  · rw [if_pos ⟨hi, hphase⟩] at hc; cases hc

/-- A command that passes its checks keeps the invariant: INIT and the engine's starts set it up, and an ABSORB that
moves the cursor does so with `next` at ABSORB. -/
theorem State.Inv.effectOf {i : Instr} {s : State} (h : s.Inv) (hc : checkInstr i s = .none) : (effectOf i s).Inv := by
  cases i with
  | nop => exact h
  | init => exact inv_clearRegisters s
  | absorb n din =>
    have hnext : s.next = .absorb := h.next_of_absorb (phase_of_checkInstr rfl hc)
    obtain ⟨hphase, -⟩ := h
    simp only [Machine.effectOf, absorbEffect]
    split
    · exact ⟨hphase, fun hsq => absurd (hnext.symm.trans hsq) nofun⟩
    · exact inv_enterBusy nofun
  | final => exact inv_enterBusy fun _ => rfl
  | permute => exact inv_enterBusy nofun
  | read lane => exact h

theorem State.Inv.exec {i : Instr} {s t : State} (h : s.Inv) (ht : exec i s = .next t) : t.Inv := by
  rcases exec_cases ht with ⟨_, rfl⟩ | ⟨_, hc, rfl⟩ | ⟨_, _, rfl⟩
  · exact h
  · exact h.effectOf hc
  · exact h.raiseCmdError _

/-- Settles O49, by the cases of an edge. -/
theorem stepKeepsTheInvariant : Obligations.StepKeepsTheInvariant := by
  intro s t h hstep
  rcases step_cases hstep with ⟨_, rfl⟩ | ⟨_, hb, rfl⟩ | ⟨_, _, _, _, i, u, _, hx, rfl⟩ | ⟨_, _, _, _, _, rfl⟩ |
    ⟨_, _, _, _, rfl⟩
  · exact (inv_clearRegisters s).advanceHost false
  · exact (h.engineRound hb).advanceHost false
  · exact (h.exec hx).advanceHost true
  · exact (h.raiseCmdError .illegal).advanceHost true
  · exact h.advanceHost false

/-- Settles O50: the state after reset is one with its registers cleared. -/
theorem resetMeetsTheInvariant : Obligations.ResetMeetsTheInvariant := ⟨inv_clearRegisters State.reset, rfl⟩

theorem legal_iff (s : State) : s.legal = true ↔ s.phase = .busy ∨ s.round = 0 := by simp [State.legal]

/-- Settles O51: such a state is not legal, and the edge tests that after reset only. -/
theorem unreachableStateIsRefused : Obligations.UnreachableStateIsRefused := by
  intro s hr hb hround
  have hl : s.legal = false := by
    rw [← Bool.not_eq_true, legal_iff]
    exact not_or.mpr ⟨hb, hround⟩
  simp [step, clockEdge, hr, hl]

end Sys2Proof.Machine
end

section
/-! What the commands do in each phase and what they leave alone (R160 to R167, R203, R207). -/

namespace Sys2Proof.Machine

open Sys2Proof

/-- A command presented in BUSY is held (R83). -/
theorem exec_busy {s : State} (i : Instr) (hb : s.phase = .busy) : exec i s = .next s :=
  (exec_eq_accept i s).trans (accept_busy hb)

theorem exec_init {s : State} (hb : s.phase ≠ .busy) : exec .init s = .next (clearRegisters s) :=
  exec_ok hb (checkInstr_init s)

/-- FINAL pads the block and starts the last permutation (R164). -/
theorem exec_final {s : State} (ha : s.phase = .absorb) : exec .final s = .next (effectOf .final s) :=
  exec_ok (by simp [ha]) (by rw [checkInstr_final, if_pos ha])

theorem exec_permute {s : State} (ha : s.phase = .absorb) : exec .permute s = .next (enterBusy .absorb s) :=
  exec_ok (by simp [ha]) (by rw [checkInstr_permute, if_pos ha])

/-- An ABSORB that fits the block counts the cursor on modulo the rate: the full block is position 0 (R162, R163). -/
theorem absorbEffect_cursor_val {n : BitVec 4} {s : State} (din : Lane) (hfit : s.cursor.val + n.toNat ≤ 136) :
    (absorbEffect n din s).cursor.val = (s.cursor.val + n.toNat) % 136 := by
  have hcontrol := absorbEffect_control din hfit
  split at hcontrol
  · next hfull =>
    obtain ⟨hcursor, -⟩ := hcontrol
    rw [hcursor, hfull]; rfl
  · next hnotfull =>
    obtain ⟨hcursor, -⟩ := hcontrol
    rw [hcursor, Nat.mod_eq_of_lt (by omega)]

/-- Settles O10, phase by phase. -/
theorem phaseTable : Obligations.PhaseTable := by
  refine ⟨fun s i hb => ⟨by simp [State.cmdReady, hb], exec_busy i hb⟩,
    fun s hb => ⟨exec_nop hb, exec_init hb, fun lane hlane => ?read⟩,
    fun s hs => ⟨exec_absorbOnly_of_squeeze hs rfl rfl, exec_absorbOnly_of_squeeze hs rfl rfl,
      fun n din hwf => exec_absorbOnly_of_squeeze hs hwf rfl⟩,
    fun s ha => ⟨⟨_, exec_final ha, rfl, rfl⟩, ⟨_, exec_permute ha, rfl, rfl⟩, fun n din hwf => ?absorb⟩⟩
  case read => exact exec_ok hb (by rw [checkInstr_read, if_pos (Nat.lt_succ_of_le hlane)])
  case absorb =>
    obtain ⟨h1, h8⟩ : 1 ≤ n.toNat ∧ n.toNat ≤ 8 := by simpa [Instr.wf] using hwf
    exact ⟨fun hfit => ⟨_, exec_absorb din ha h1 h8 hfit, absorbEffect_err n din s, absorbEffect_cursor_val din hfit⟩,
      exec_absorb_overrun din ha h1 h8⟩

/-- What a command's effect and recording an error both leave alone, the command leaves alone: the rest is being held. -/
theorem exec_keeps {α : Type} (f : State → α) {i : Instr} {s t : State} (h : exec i s = .next t)
    (heffect : checkInstr i s = .none → f (effectOf i s) = f s) (herror : ∀ e, f (raiseCmdError e s) = f s) :
    f t = f s := by
  rcases exec_cases h with ⟨_, rfl⟩ | ⟨_, hc, rfl⟩ | ⟨_, _, rfl⟩
  · rfl
  · exact heffect hc
  · exact herror _

/-- A command other than INIT that changes `err` has failed its checks with no error recorded before (R207). -/
theorem failed_of_exec_err {i : Instr} {s t : State} (hinit : i ≠ .init) (h : exec i s = .next t)
    (hne : t.err ≠ s.err) : s.err = .none ∧ t.err = checkInstr i s ∧ t = { s with err := t.err } := by
  rcases exec_cases h with ⟨_, rfl⟩ | ⟨_, _, rfl⟩ | ⟨_, _, rfl⟩
  · exact absurd rfl hne
  · exact absurd (effectOf_err_of_ne_init s hinit) hne
  · have hnone : s.err = .none := by
      by_contra hsome
      exact hne (by rw [raiseCmdError_err, if_neg hsome])
    exact ⟨hnone, by rw [raiseCmdError_err, if_pos hnone], raiseCmdError_eq_withErr _ s⟩

/-- Settles O21: each frame holds of the command's effect and of recording an error. -/
theorem commandFrames : Obligations.CommandFrames := by
  intro i s t h
  refine ⟨exec_script h, fun hinit l hl => exec_capacity hinit h hl, ?lanes, ?dout, ?control, ?cursor,
    fun hinit => failed_of_exec_err hinit h⟩
  case lanes =>
    rintro (rfl | rfl | ⟨lane, rfl⟩) <;> exact exec_keeps State.A h (fun _ => rfl) fun e => raiseCmdError_A e s
  case dout =>
    intro hinit hread
    exact exec_keeps State.dout h (fun _ => effectOf_dout s hinit hread) fun e => raiseCmdError_dout e s
  case control =>
    intro hi
    have hkeeps : (t.phase, t.next, t.round, t.cursor) = (s.phase, s.next, s.round, s.cursor) := by
      rcases hi with rfl | ⟨lane, rfl⟩ <;>
        exact exec_keeps (fun u => (u.phase, u.next, u.round, u.cursor)) h (fun _ => rfl) fun e => by simp
    simpa only [Prod.mk.injEq] using hkeeps
  case cursor =>
    rintro rfl
    exact exec_keeps State.cursor h (fun _ => rfl) fun e => raiseCmdError_cursor e s

/-- Settles O22: the effects store to the bytes that `sbyte_absorbLanes` and `sbyte_padLanes` name. -/
theorem storesTouchOnlyTheirBytes : Obligations.StoresTouchOnlyTheirBytes := by
  refine ⟨fun s t n din h k hout => exec_keeps (fun u => sbyte u.A k) h (fun _ => ?absorb) fun e => by simp,
    fun s t h k hcursor hlast => exec_keeps (fun u => sbyte u.A k) h (fun _ => ?final) fun e => by simp⟩
  case absorb => rw [effectOf, absorbEffect_A, sbyte_absorbLanes, if_neg hout]
  case final => exact (sbyte_padLanes s k).trans (by simp [hcursor, hlast])

/-- An error that is recorded already is not recorded again (R207). -/
theorem raiseCmdError_idempotent (e : ErrCode) (s : State) : raiseCmdError e (raiseCmdError e s) = raiseCmdError e s := by
  by_cases hnone : s.err = .none <;> simp [raiseCmdError, hnone]

/-- The effects of NOP, INIT and READ leave a state that has them already. -/
theorem effectOf_idempotent {i : Instr} (s : State) (hi : i = .nop ∨ i = .init ∨ ∃ lane, i = .read lane) :
    effectOf i (effectOf i s) = effectOf i s := by
  rcases hi with rfl | rfl | ⟨lane, rfl⟩ <;> rfl

/-- NOP, INIT and READ do not start the engine, and their checks read no register. -/
theorem effectOf_passes_again {i : Instr} {s : State} (hi : i = .nop ∨ i = .init ∨ ∃ lane, i = .read lane)
    (hb : s.phase ≠ .busy) (hc : checkInstr i s = .none) :
    (effectOf i s).phase ≠ .busy ∧ checkInstr i (effectOf i s) = .none := by
  rcases hi with rfl | rfl | ⟨lane, rfl⟩
  · exact ⟨hb, hc⟩
  · exact ⟨nofun, rfl⟩
  · exact ⟨hb, hc⟩

/-- Settles O23: a second run has the same effect, or fails the same check. -/
theorem nopInitReadAreIdempotent : Obligations.NopInitReadAreIdempotent := by
  intro s t i hi hb h
  rcases exec_cases h with ⟨hb', _⟩ | ⟨_, hc, rfl⟩ | ⟨_, hc, rfl⟩
  · exact absurd hb' hb
  · obtain ⟨hb', hc'⟩ := effectOf_passes_again hi hb hc
    rw [exec_ok hb' hc', effectOf_idempotent s hi]
  · have hcheck : checkInstr i (raiseCmdError (checkInstr i s) s) = checkInstr i s :=
      checkInstr_congr i (raiseCmdError_phase _ s) (raiseCmdError_cursor _ s)
    rw [exec_of_checkInstr (by simpa using hb) hcheck hc, raiseCmdError_idempotent]

end Sys2Proof.Machine
end

section
/-! What the commands take from `din` (R63, R92), and the `digest` port (R95): both are bytes and lanes of a word. -/

namespace Sys2Proof.Machine

open Sys2Proof

/-- A slice of a slice is a slice. -/
theorem extractLsb'_of_extractLsb' {w : Nat} (v : BitVec w) {start width offset len : Nat} (h : offset + len ≤ width) :
    (v.extractLsb' start width).extractLsb' offset len = v.extractLsb' (start + offset) len := by
  refine BitVec.eq_of_getLsbD_eq fun z hz => ?_
  simp [hz, show offset + z < width by omega, Nat.add_assoc]

/-- A lane is determined by its 8 bytes. -/
theorem lane_eq_of_bytes {v w : Lane} (h : ∀ j : Fin 8, v.extractLsb' (8 * j.val) 8 = w.extractLsb' (8 * j.val) 8) :
    v = w := by
  refine BitVec.eq_of_getLsbD_eq fun z hz => ?_
  have hbit := congrArg (fun b => b.getLsbD (z % 8)) (h ⟨z / 8, by omega⟩)
  simpa [Nat.div_add_mod, Nat.mod_lt] using hbit

/-- Settles O16: byte by byte, the eight bytes of `din` fall on those of the lane at the cursor. -/
theorem alignedAbsorbXorsOneLane : Obligations.AlignedAbsorbXorsOneLane := by
  intro s din i ha hcursor
  have hn : (8 : BitVec 4).toNat = 8 := rfl
  refine ⟨_, exec_absorb din ha (by decide) (by decide) (by omega), fun j => lane_eq_of_bytes fun b => ?_⟩
  have hbyte : (8 * j.val + b.val) < 200 := by omega
  rw [absorbEffect_A, ← sbyte_of_lane_and_offset _ j b hbyte, sbyte_absorbLanes, hcursor, hn,
    sbyte_of_lane_and_offset _ j b hbyte]
  by_cases hj : j.val = i.val
  · have hin : 8 * i.val ≤ 8 * j.val + b.val ∧ 8 * j.val + b.val < 8 * i.val + 8 := by omega
    have hpos : 8 * j.val + b.val - 8 * i.val = b.val := by omega
    rw [if_pos hj, if_pos hin, hpos, dinByte, BitVec.extractLsb'_xor]
  · have hout : ¬ (8 * i.val ≤ 8 * j.val + b.val ∧ 8 * j.val + b.val < 8 * i.val + 8) := by omega
    rw [if_neg hj, if_neg hout]

/-- The N bytes that ABSORB takes are bits 0..8N-1 of `din` (R63). -/
theorem dinBytes_congr {n : Nat} {d e : Lane} (h : ∀ z, z < 8 * n → d.getLsbD z = e.getLsbD z) :
    dinBytes n d = dinBytes n e := by
  refine List.map_congr_left fun j hj => BitVec.eq_of_getLsbD_eq fun z hz => ?_
  have hjn : j < n := List.mem_range.mp hj
  rw [dinByte, dinByte, BitVec.getLsbD_extractLsb', BitVec.getLsbD_extractLsb', h _ (by omega)]

/-- Beside `din`, ABSORB's checks and effect read its bytes only. -/
theorem exec_absorb_congr {s : State} {n : BitVec 4} {d e : Lane} (h : dinBytes n.toNat d = dinBytes n.toNat e) :
    exec (.absorb n d) s = exec (.absorb n e) s := by
  have hcheck : checkInstr (.absorb n d) s = checkInstr (.absorb n e) s := by simp only [checkInstr_absorb]
  have heffect : absorbEffect n d s = absorbEffect n e s := by simp only [absorbEffect, absorbLanes, h]
  simp only [exec_eq_accept, accept, effectOf, hcheck, heffect]

/-- A word of another OP decodes to the same command beside any data word (R92). -/
theorem decode_din_irrelevant {cmd : CmdWord} {d : Lane} {i : Instr} (e : Lane) (hop : cmdOp cmd ≠ 2)
    (h : decode cmd d = .ok i) : decode cmd e = .ok i := by
  obtain ⟨hwf, rfl, -⟩ := encodeCmd_of_decode h
  refine decode_encodeCmd hwf fun n x hi => absurd ?_ hop
  rw [hi, encodeCmd, cmdOp_word]

/-- Settles O17; a word of another OP is illegal with any `din`, or runs one command with any `din`. -/
theorem unusedDinBitsAreIgnored : Obligations.UnusedDinBitsAreIgnored := by
  refine ⟨fun s n d e h => exec_absorb_congr (dinBytes_congr h), fun s cmd d e hop => ?_⟩
  cases hlegal : illegalFormat cmd with
  | true => rw [execute_of_illegal d s hlegal, execute_of_illegal e s hlegal]
  | false =>
    obtain ⟨i, hi⟩ := exists_decode_of_legal d hlegal
    rw [execute_of_decode s hi, execute_of_decode s (decode_din_irrelevant e hop hi)]

/-- Lane i of the `digest` port: each append puts the next lane above (R95). -/
theorem extractLsb'_digest_lane (s : State) (i : Fin 25) (hi : i.val < 4) :
    s.digest.extractLsb' (64 * i.val) 64 = s.A[i] := by
  obtain rfl | rfl | rfl | rfl : i = 0 ∨ i = 1 ∨ i = 2 ∨ i = 3 := by omega
  all_goals
    change BitVec.extractLsb' _ 64 (s.A[3] ++ s.A[2] ++ s.A[1] ++ s.A[0] : BitVec (64 + 64 + 64 + 64)) = _
    simp (disch := decide) only [BitVec.extractLsb'_append_eq_of_le, BitVec.extractLsb'_append_eq_of_add_le]
    exact BitVec.extractLsb'_eq_self

/-- Byte k of the `digest` port is state byte k: both are the same slice of lane k div 8 (R64, R95). -/
theorem extractLsb'_digest_byte (s : State) (k : Fin 200) (hk : k.val < 32) :
    s.digest.extractLsb' (8 * k.val) 8 = sbyte s.A k := by
  have hlane : (byteLane k).val < 4 := show k.val / 8 < 4 by omega
  have hpos : 8 * k.val = 64 * (byteLane k).val + byteShift k :=
    show 8 * k.val = 64 * (k.val / 8) + 8 * (k.val % 8) by omega
  have hfits : byteShift k + 8 ≤ 64 := show 8 * (k.val % 8) + 8 ≤ 64 by omega
  rw [sbyte, ← extractLsb'_digest_lane s _ hlane, extractLsb'_of_extractLsb' _ hfits, hpos]

/-- Settles O44, from the two laws of the port. -/
theorem digestPortCarriesLanes : Obligations.DigestPortCarriesLanes := fun s =>
  ⟨extractLsb'_digest_lane s, extractLsb'_digest_byte s, by simp [State.digestValid]⟩

end Sys2Proof.Machine
end

section
/-! The accepting edge of an issued command, and the edges of reset and INIT. -/

namespace Sys2Proof.Machine

open Sys2Proof

/-- Settles O37, from the accepting edge and how the host moves on. -/
theorem stepRunsTheDecodedCommand : Obligations.StepRunsTheDecodedCommand := by
  refine ⟨fun s i hl ha hd => ?_, advanceHost_sameRegisters true, fun s cmd din rest hs =>
    ⟨port_of_cons hs, advanceHost_script_issue hs, advanceHost_script_issue hs⟩⟩
  obtain ⟨t, ht, hstep⟩ := step_of_accepts hl ha
  exact ⟨t, execute_of_decode s hd ▸ ht, hstep⟩

/-- Settles O39: a reset edge and INIT both clear the registers. -/
theorem resetLeavesWhatInitLeaves : Obligations.ResetLeavesWhatInitLeaves := by
  refine ⟨fun s t u hr hb ht hu => ?_, exec_init nofun⟩
  rw [step_reset hr] at ht
  rw [exec_init hb] at hu
  cases ht
  cases hu
  exact advanceHost_sameRegisters false _

end Sys2Proof.Machine
end

section
/-! The engine while the host holds a move (R134, R237): 24 edges, at none of which a command is accepted. -/

namespace Sys2Proof.Machine

open Sys2Proof

theorem State.RstLow.mono {s : State} {m n : Nat} (h : s.RstLow n) (hmn : m ≤ n) : s.RstLow m :=
  fun j hj => h j (Nat.lt_of_lt_of_le hj hmn)

theorem EngineRan.busy {s u : State} {k : Nat} (h : EngineRan s k u) (hk : k < 24) : u.phase = .busy := by
  rw [h.phase, if_pos hk]

/-- After the last round the phase is the one `next` names (R133). -/
theorem EngineRan.phase_done {s u : State} (h : EngineRan s 24 u) : u.phase = s.next.toPhase :=
  h.phase.trans (if_neg (Nat.lt_irrefl 24))

theorem EngineRan.round_done {s u : State} (h : EngineRan s 24 u) : u.round = 0 :=
  Fin.ext h.round

/-- Settles O41: up to 24 edges are as many rounds, and BUSY is left with the last of them. -/
theorem permutationTakesTwentyFourEdges : Obligations.PermutationTakesTwentyFourEdges := by
  intro s hb h0 hr
  refine ⟨fun j hj => ?running, ?done⟩
  case running =>
    obtain ⟨u, hu, hran⟩ := edges_engine hb h0 (Nat.le_of_lt hj) (hr.mono (Nat.le_of_lt hj))
    have hub : u.phase = .busy := hran.busy hj
    exact ⟨u, hu, hub, by simp [State.cmdReady, hub]⟩
  case done =>
    obtain ⟨u, hu, hran⟩ := edges_engine hb h0 le_rfl hr
    exact ⟨u, hu, hran.lanes_eq_keccakF, hran.phase_done, hran.round_done, hran.cursor, hran.err, hran.dout, hran.next⟩

/-- A host that waits or holds a command does not drive `rst` (R98, R235). -/
theorem rst_of_held {s : State} {move : HostMove} {rest : List HostMove} (hs : s.script = move :: rest)
    (hmove : ∀ p, move ≠ .drive p) : s.port.rst = false := by
  rw [port_of_cons hs]
  cases move with
  | drive p => exact absurd rfl (hmove p)
  | issue cmd din => rfl
  | waitDone => rfl

/-- A held move stays with the host at an edge that neither accepts a command nor enters SQUEEZE (R84, R98). -/
theorem advanceHost_script_held {s : State} {move : HostMove} {rest : List HostMove} (hs : s.script = move :: rest)
    (hmove : ∀ p, move ≠ .drive p) (hsq : s.phase ≠ .squeeze) : (advanceHost false s).script = s.script := by
  cases move with
  | drive p => exact absurd rfl (hmove p)
  | issue cmd din => exact advanceHost_script_issue hs
  | waitDone => rw [advanceHost_script_waitDone hs, if_neg hsq]

/-- The engine's edge leaves a held move with the host, unless it enters SQUEEZE. -/
theorem script_of_step_busy {s t : State} {move : HostMove} {rest : List HostMove} (hb : s.phase = .busy)
    (hs : s.script = move :: rest) (hmove : ∀ p, move ≠ .drive p) (hstep : step s = .next t)
    (hsq : t.phase ≠ .squeeze) : t.script = s.script := by
  rw [step_busy (rst_of_held hs hmove) hb] at hstep
  cases hstep
  rw [advanceHost_phase] at hsq
  rw [advanceHost_script_held ((engineRound_script s).trans hs) hmove hsq, engineRound_script]

/-- While the engine runs, a held move stays with the host. -/
theorem edges_engine_held {s : State} {move : HostMove} {rest : List HostMove} {n : Nat} (hb : s.phase = .busy)
    (h0 : s.round = 0) (hs : s.script = move :: rest) (hmove : ∀ p, move ≠ .drive p) (hn : n < 24) :
    ∃ u, edges n s = .next u ∧ EngineRan s n u ∧ u.script = s.script := by
  induction n with
  | zero => exact ⟨s, edges_zero s, engineRan_zero hb h0, rfl⟩
  | succ n ih =>
    obtain ⟨u, hu, hran, hscript⟩ := ih (by omega)
    have hus : u.script = move :: rest := hscript.trans hs
    obtain ⟨t, ht, hran'⟩ := hran.succ (by omega) (rst_of_held hus hmove)
    have hsq : t.phase ≠ .squeeze := by simp [hran'.busy hn]
    exact ⟨t, edges_snoc hu ht, hran',
      (script_of_step_busy (hran.busy (by omega)) hus hmove ht hsq).trans hscript⟩

/-- A host that holds a move keeps `rst` low for the 24 edges of a permutation. -/
theorem rstLow_of_held {s : State} {move : HostMove} {rest : List HostMove} (hb : s.phase = .busy)
    (h0 : s.round = 0) (hs : s.script = move :: rest) (hmove : ∀ p, move ≠ .drive p) : s.RstLow 24 := by
  intro j hj u hu
  obtain ⟨u', hu', -, hscript⟩ := edges_engine_held hb h0 hs hmove hj
  cases hu.symm.trans hu'
  exact rst_of_held (hscript.trans hs) hmove

/-- An issued command is with the host after the whole permutation, whatever phase it ends in (R84, R237). -/
theorem edges_permutation_issued {s : State} {cmd : CmdWord} {din : Lane} {rest : List HostMove}
    (hb : s.phase = .busy) (h0 : s.round = 0) (hs : s.script = .issue cmd din :: rest) :
    ∃ u, edges 24 s = .next u ∧ EngineRan s 24 u ∧ u.script = s.script := by
  obtain ⟨u, hu, hran, hscript⟩ := edges_engine_held hb h0 hs nofun (show 23 < 24 by decide)
  have hus : u.script = .issue cmd din :: rest := hscript.trans hs
  have hr : u.port.rst = false := rst_of_held hus nofun
  obtain ⟨t, ht, hran'⟩ := hran.succ (by decide) hr
  refine ⟨t, edges_snoc hu ht, hran', ?_⟩
  cases (step_busy hr (hran.busy (by decide))).symm.trans ht
  rw [advanceHost_script_issue ((engineRound_script u).trans hus), ← hscript]
  exact engineRound_script u

/-- The edge that accepts an issued command of the assembler: the command runs, and the host goes on (R97, R99, R235). -/
theorem step_issueInstr {s t : State} {i : Instr} {rest : List HostMove} (hl : s.legal = true) (hb : s.phase ≠ .busy)
    (hs : s.script = issueInstr i :: rest) (hwf : i.wf = true) (hexec : exec i s = .next t) :
    step s = .next { t with script := rest } := by
  have hport : s.port = (issueInstr i).port := port_of_cons hs
  have hdecode : decode (encodeCmd i) (encodeDin i) = .ok i := decodeOfEncode i hwf
  have hscript : t.script = issueInstr i :: rest := (exec_script hexec).trans hs
  have hhost : advanceHost true t = { t with script := rest } := by simp [advanceHost, hscript, issueInstr]
  rw [step_accept (by rw [hport]; rfl) hl hb (by rw [hport]; rfl), hport]
  change mapNext _ (execute (encodeCmd i) (encodeDin i) s) = _
  rw [execute_of_decode s hdecode, hexec, mapNext, hhost]

/-- The permutation ends in a legal state that accepts commands (R133). -/
theorem EngineRan.legal_and_ready {s u : State} (h : EngineRan s 24 u) : u.legal = true ∧ u.phase ≠ .busy := by
  refine ⟨(legal_iff u).mpr (.inr h.round_done), ?_⟩
  rw [h.phase_done]
  cases s.next <;> nofun

/-- Settles O42: after the 24 edges the READ is still issued, and the next edge runs it. -/
theorem heldReadSeesThePermutedState : Obligations.HeldReadSeesThePermutedState := by
  intro s lane hlane rest hb h0 hs
  obtain ⟨u, hu, hran, hscript⟩ := edges_permutation_issued hb h0 hs
  obtain ⟨hl, hub⟩ := hran.legal_and_ready
  have hwf : (Instr.read lane).wf = true := by simpa [Instr.wf] using hlane
  have hstep := step_issueInstr (i := .read lane) hl hub (hscript.trans hs) hwf (exec_read hub hlane)
  have hA : u.A = keccakF s.A := hran.lanes_eq_keccakF
  exact ⟨_, edges_snoc hu hstep, by simp only [hA], hA, rfl⟩

end Sys2Proof.Machine
end

section
/-! Words from bytes (R168): LE64, LE, and a block XORed into the lanes, byte by byte. -/

namespace Sys2Proof.Machine

open Sys2Proof

/-- Settles O34, by running the 24 rounds. -/
theorem keccakOfZeroStateVector : Obligations.KeccakOfZeroStateVector := by
  unfold Obligations.KeccakOfZeroStateVector
  decide +kernel

/-- Bytes past the first of LE64 stand 8 bits higher. -/
theorem extractLsb'_le64_succ (b : Byte) (bs : List Byte) {j : Nat} (hj : j + 1 < 8) :
    (le64 (b :: bs)).extractLsb' (8 * (j + 1)) 8 = (le64 bs).extractLsb' (8 * j) 8 := by
  refine BitVec.eq_of_getLsbD_eq fun z hz => ?_
  have hlow : b.getLsbD (8 * (j + 1) + z) = false := BitVec.getLsbD_of_ge b _ (by omega)
  have hpos : 8 * (j + 1) + z - 8 = 8 * j + z := by omega
  rw [le64, BitVec.getLsbD_extractLsb', BitVec.getLsbD_or, BitVec.getLsbD_setWidth, BitVec.getLsbD_shiftLeft, hlow,
    hpos, BitVec.getLsbD_extractLsb']
  simp [show 8 * (j + 1) + z < 64 by omega, show ¬ 8 * (j + 1) + z < 8 by omega]

/-- Byte j of LE64 is byte j of the list, and 0 where the list has ended (R168). -/
theorem extractLsb'_le64 (bs : List Byte) {j : Nat} (hj : j < 8) :
    (le64 bs).extractLsb' (8 * j) 8 = bs.getD j 0 := by
  induction bs generalizing j with
  | nil => simp [le64]
  | cons b bs ih =>
    cases j with
    | zero =>
      refine BitVec.eq_of_getLsbD_eq fun z hz => ?_
      simp [le64, hz, show z < 64 by omega]
    | succ j =>
      rw [extractLsb'_le64_succ b bs hj, ih (by omega), List.getD_cons_succ]

theorem getD_slice (P : List Byte) (start count j : Nat) (hj : j < count) :
    (slice P start count).getD j 0 = P.getD (start + j) 0 := by
  simp [slice, hj]

/-- The lanes of an XORed block: lane i takes bytes 8i..8i+7 of it, inside the rate (R168). -/
theorem getElem_xorBlock (S : Lanes) (block : List Byte) (i : Fin 25) :
    (xorBlock S block)[i] = if i.val < 17 then S[i] ^^^ le64 (slice block (8 * i.val) 8) else S[i] := by
  simp [xorBlock]

/-- A block of at most 136 bytes is XORed into the state byte by byte (R168). -/
theorem sbyte_xorBlock (S : Lanes) {block : List Byte} (hlen : block.length ≤ 136) (k : Fin 200) :
    sbyte (xorBlock S block) k = sbyte S k ^^^ block.getD k.val 0 := by
  have hmod : k.val % 8 < 8 := Nat.mod_lt _ (by decide)
  rw [sbyte, getElem_xorBlock]
  by_cases hrate : (byteLane k).val < 17
  · have hbyte : (le64 (slice block (8 * (byteLane k).val) 8)).extractLsb' (byteShift k) 8 = block.getD k.val 0 := by
      rw [byteShift, extractLsb'_le64 _ hmod, getD_slice _ _ _ _ hmod]
      congr 1
      exact Nat.div_add_mod k.val 8
    rw [if_pos hrate, BitVec.extractLsb'_xor, hbyte, sbyte]
  · have hk : 136 ≤ k.val := by
      have : ¬ k.val / 8 < 17 := hrate
      omega
    have hpast : block.getD k.val 0 = 0 := List.getD_eq_default _ _ (by omega)
    rw [if_neg hrate, hpast, sbyte, BitVec.ofNat_eq_ofNat, BitVec.xor_zero]

/-- An empty block changes nothing. -/
theorem xorBlock_nil (S : Lanes) : xorBlock S [] = S :=
  lanes_ext_bytes fun k => by simp [sbyte_xorBlock]

/-- Bytes XORed behind a block make a longer block (R169). -/
theorem xorBlock_append (S : Lanes) {block bs : List Byte} (hlen : block.length + bs.length ≤ 136) :
    xorBlock S (block ++ bs) = xorBytes (xorBlock S block) block.length bs := by
  refine lanes_ext_bytes fun k => ?_
  rw [sbyte_xorBlock S (by simpa using hlen), sbyte_xorBytes _ _ _ _ (by omega), sbyte_xorBlock S (by omega)]
  split
  · next h =>
    obtain ⟨hlow, hhigh⟩ := h
    have hblock : block.getD k.val 0 = 0 := List.getD_eq_default _ _ hlow
    rw [hblock, List.getD_append_right _ _ _ _ hlow, List.getD_eq_getElem _ _ (by omega)]
    simp
  · next h =>
    rcases Nat.lt_or_ge k.val block.length with hlow | hlow
    · rw [List.getD_append _ _ _ _ hlow]
    · have hpast : (block ++ bs).getD k.val 0 = 0 := List.getD_eq_default _ _ (by simp; omega)
      rw [hpast, List.getD_eq_default _ _ hlow]

@[simp] theorem length_leBytes (v : Lane) : (leBytes v).length = 8 := by simp [leBytes]

@[simp] theorem length_squeezeBytes (S : Lanes) : (squeezeBytes S).length = 32 := by simp [squeezeBytes]

/-- The output is the bytes of lanes 0..3 in order (R168). -/
theorem getElem?_squeezeBytes_lane (S : Lanes) (i : Fin 25) (hi : i.val < 4) (j : Fin 8) :
    (squeezeBytes S)[8 * i.val + j.val]? = some (S[i].extractLsb' (8 * j.val) 8) := by
  obtain rfl | rfl | rfl | rfl : i = 0 ∨ i = 1 ∨ i = 2 ∨ i = 3 := by omega
  all_goals fin_cases j <;> rfl

/-- The output bytes are state bytes 0..31 (R168). -/
theorem getElem?_squeezeBytes (S : Lanes) {k : Fin 200} (hk : k.val < 32) :
    (squeezeBytes S)[k.val]? = some (sbyte S k) := by
  have hlane : (byteLane k).val < 4 := show k.val / 8 < 4 by omega
  have h := getElem?_squeezeBytes_lane S (byteLane k) hlane ⟨k.val % 8, Nat.mod_lt _ (by decide)⟩
  rwa [show 8 * (byteLane k).val + k.val % 8 = k.val from Nat.div_add_mod k.val 8] at h

end Sys2Proof.Machine
end

section
/-! The sponge over a message (R168, R169, R171): blocks read the message as far as they go, and appending bytes to a
message is XORing them into the state it leaves. -/

namespace Sys2Proof.Machine

open Sys2Proof

/-- The first blocks of a message do not change when bytes are appended. -/
theorem absorbBlocks_append (P Q : List Byte) {b : Nat} (hb : 136 * b ≤ P.length) :
    absorbBlocks (P ++ Q) b = absorbBlocks P b := by
  induction b with
  | zero => rfl
  | succ b ih =>
    have hslice : slice (P ++ Q) (136 * b) 136 = slice P (136 * b) 136 := by
      rw [slice, slice, List.drop_append_of_le_length (by omega), List.take_append_of_le_length (by simp; omega)]
    rw [absorbBlocks, absorbBlocks, ih (by omega), hslice]

/-- The bytes of m that fill no block. -/
def leftover (m : List Byte) : List Byte := m.drop (136 * (m.length / 136))

@[simp] theorem length_leftover (m : List Byte) : (leftover m).length = m.length % 136 := by
  rw [leftover, List.length_drop]
  omega

/-- Behind the full blocks of m stand its leftover bytes and what is appended. -/
theorem slice_append_leftover (m bs : List Byte) (hfit : m.length % 136 + bs.length ≤ 136) :
    slice (m ++ bs) (136 * (m.length / 136)) 136 = leftover m ++ bs := by
  rw [slice, List.drop_append_of_le_length (by omega)]
  exact List.take_of_length_le (show (leftover m ++ bs).length ≤ 136 by simpa using hfit)

theorem spongeState_eq (m : List Byte) :
    spongeState m = xorBlock (absorbBlocks m (m.length / 136)) (leftover m) := by
  have h := slice_append_leftover m [] (by simp; omega)
  rw [List.append_nil, List.append_nil] at h
  rw [spongeState, h]

/-- Bytes that the current block has room for are XORed in behind the leftover bytes. -/
theorem xorBytes_spongeState (m : List Byte) {bs : List Byte} (hfit : m.length % 136 + bs.length ≤ 136) :
    xorBytes (spongeState m) (m.length % 136) bs =
      xorBlock (absorbBlocks (m ++ bs) (m.length / 136)) (slice (m ++ bs) (136 * (m.length / 136)) 136) := by
  rw [spongeState_eq, slice_append_leftover m bs hfit, absorbBlocks_append m bs (by omega),
    xorBlock_append _ (by simpa using hfit), length_leftover]

/-- Appending bytes that do not fill the block (R169, R171). -/
theorem spongeState_append_partial (m : List Byte) {bs : List Byte} (hfit : m.length % 136 + bs.length < 136) :
    spongeState (m ++ bs) = xorBytes (spongeState m) (m.length % 136) bs := by
  have hblocks : (m ++ bs).length / 136 = m.length / 136 := by rw [List.length_append]; omega
  rw [xorBytes_spongeState m hfit.le, spongeState, hblocks]

/-- A block filled by appended bytes is permuted (R168). -/
theorem absorbBlocks_append_full (m : List Byte) {bs : List Byte} (hfull : m.length % 136 + bs.length = 136) :
    absorbBlocks (m ++ bs) ((m ++ bs).length / 136) = keccakF (xorBytes (spongeState m) (m.length % 136) bs) := by
  have hblocks : (m ++ bs).length / 136 = m.length / 136 + 1 := by rw [List.length_append]; omega
  rw [xorBytes_spongeState m hfull.le, hblocks, absorbBlocks]

/-- Appending bytes that fill the block: it is permuted, and nothing is left over (R169, R171). -/
theorem spongeState_append_full (m : List Byte) {bs : List Byte} (hfull : m.length % 136 + bs.length = 136) :
    spongeState (m ++ bs) = keccakF (xorBytes (spongeState m) (m.length % 136) bs) := by
  have hleft : leftover (m ++ bs) = [] := by
    rw [← List.length_eq_zero_iff, length_leftover, List.length_append]
    omega
  rw [spongeState_eq, hleft, xorBlock_nil, absorbBlocks_append_full m hfull]

end Sys2Proof.Machine
end

section
/-! The padding (R168): what `padMessage` appends to a message, byte by byte, and that FINAL XORs in the same bytes. -/

namespace Sys2Proof.Machine

open Sys2Proof

@[simp] theorem length_orLastByte (v : Byte) (l : List Byte) : (orLastByte v l).length = l.length := by
  induction l using orLastByte.induct with
  | case1 => rfl
  | case2 b => rfl
  | case3 b c bs ih => simpa [orLastByte] using ih

/-- The last byte of a list is not in its front part. -/
theorem orLastByte_append (v : Byte) (m : List Byte) {l : List Byte} (hl : l ≠ []) :
    orLastByte v (m ++ l) = m ++ orLastByte v l := by
  induction m with
  | nil => rfl
  | cons b m ih =>
    obtain ⟨c, bs, hcons⟩ : ∃ c bs, m ++ l = c :: bs := List.exists_cons_of_ne_nil (by simp [hl])
    rw [List.cons_append, List.cons_append, ← ih, hcons, orLastByte]

theorem getElem?_orLastByte (v : Byte) (l : List Byte) (i : Nat) :
    (orLastByte v l)[i]? = if i + 1 = l.length then l[i]?.map (· ||| v) else l[i]? := by
  induction l using orLastByte.induct generalizing i with
  | case1 => rfl
  | case2 b => cases i <;> simp [orLastByte]
  | case3 b c bs ih =>
    cases i with
    | zero => simp [orLastByte]
    | succ i => simpa [orLastByte] using ih i

/-- The bytes R168 puts behind a message of L bytes. -/
def padTail (len : Nat) : List Byte := orLastByte Config.padLast (Config.padFirst :: List.replicate (zeroPadCount len) 0)

theorem padMessage_eq (m : List Byte) : padMessage m = m ++ padTail m.length :=
  orLastByte_append _ m (List.cons_ne_nil _ _)

/-- The tail fills the block of the message's last byte, or a block of its own (R168). -/
theorem length_padTail (len : Nat) : (padTail len).length = 136 - len % 136 := by
  rw [padTail, length_orLastByte, List.length_cons, List.length_replicate, zeroPadCount]
  omega

/-- Byte j of the tail: 0x01 first, 0x80 last, both where they coincide (R168). -/
theorem getElem?_padTail {len j : Nat} (hj : j < 136 - len % 136) :
    (padTail len)[j]? =
      some ((if j = 0 then 0x01#8 else 0#8) ^^^ (if j + 1 = 136 - len % 136 then 0x80#8 else 0#8)) := by
  have hcount : zeroPadCount len + 1 = 136 - len % 136 := by rw [zeroPadCount]; omega
  rw [padTail, getElem?_orLastByte, List.length_cons, List.length_replicate, hcount]
  cases j with
  | zero => by_cases hlast : 0 + 1 = 136 - len % 136 <;> simp [hlast]
  | succ j =>
    have hzero : j < zeroPadCount len := by omega
    simp [hzero]
    split <;> simp

/-- FINAL XORs the padding tail in at the cursor (R164, R168). -/
theorem padLanes_eq_xorBytes {s : State} {len : Nat} (hcursor : s.cursor.val = len % 136) :
    padLanes s = xorBytes s.A (len % 136) (padTail len) := by
  refine lanes_ext_bytes fun k => ?_
  rw [sbyte_padLanes, sbyte_xorBytes _ _ _ _ (by rw [length_padTail]; omega), hcursor]
  by_cases h : len % 136 ≤ k.val ∧ k.val < len % 136 + (padTail len).length
  · rw [dif_pos h]
    obtain ⟨hlow, hhigh⟩ := h
    rw [length_padTail] at hhigh
    have hfirst : k.val - len % 136 = 0 ↔ k.val = len % 136 := by omega
    have hlast : k.val - len % 136 + 1 = 136 - len % 136 ↔ k.val = 135 := by omega
    have hj : k.val - len % 136 < 136 - len % 136 := by omega
    obtain ⟨_, htail⟩ := List.getElem?_eq_some_iff.mp (getElem?_padTail hj)
    rw [htail]
    simp only [hfirst, hlast, BitVec.xor_assoc]
  · rw [dif_neg h]
    rw [length_padTail] at h
    have hfirst : k.val ≠ len % 136 := by omega
    have hlast : k.val ≠ 135 := by omega
    simp [hfirst, hlast]

end Sys2Proof.Machine
end

section
/-! The reference function and the commands that compute it (R168, R169, R171 to R173). -/

namespace Sys2Proof.Machine

open Sys2Proof

theorem length_padMessage (m : List Byte) : (padMessage m).length = 136 * (m.length / 136 + 1) := by
  rw [padMessage_eq, List.length_append, length_padTail]
  omega

/-- Behind the message the padded message has the bytes of the tail. -/
theorem getElem?_padMessage (m : List Byte) {k : Nat} (hk : m.length ≤ k) :
    (padMessage m)[k]? = (padTail m.length)[k - m.length]? := by
  rw [padMessage_eq, List.getElem?_append_right hk]

/-- Settles O52: the message and behind it the tail, whose first and last byte coincide where L mod 136 is 135. -/
theorem paddedLengthAndDigestLength : Obligations.PaddedLengthAndDigestLength := by
  intro m
  have hlen := length_padMessage m
  refine ⟨hlen, ?message, ?first, fun k hlow hhigh => ?zero, fun hroom => ?last, length_squeezeBytes _⟩
  case message => rw [padMessage_eq, List.take_left]
  case first =>
    have hlast : 0 + 1 = 136 - m.length % 136 ↔ m.length % 136 = 135 := by omega
    rw [getElem?_padMessage m le_rfl, Nat.sub_self, getElem?_padTail (by omega)]
    simp only [hlast, if_true]
    split <;> rfl
  case zero =>
    have hfirst : k - m.length ≠ 0 := by omega
    have hlast : k - m.length + 1 ≠ 136 - m.length % 136 := by omega
    rw [getElem?_padMessage m hlow.le, getElem?_padTail (by omega), if_neg hfirst, if_neg hlast]
    rfl
  case last =>
    have hfirst : (padMessage m).length - 1 - m.length ≠ 0 := by omega
    have hlast : (padMessage m).length - 1 - m.length + 1 = 136 - m.length % 136 := by omega
    rw [getElem?_padMessage m (by omega), getElem?_padTail (by omega), if_neg hfirst, if_pos hlast]
    rfl

/-- ABSORB XORs its bytes in behind those of the message absorbed before (R162, R169). -/
theorem State.Absorbed.absorbLanes {s : State} {m : List Byte} (h : s.Absorbed m) (n : BitVec 4) (din : Lane) :
    absorbLanes n din s = xorBytes (spongeState m) (m.length % 136) (dinBytes n.toNat din) := by
  obtain ⟨-, hA, hcursor⟩ := h
  rw [Machine.absorbLanes, hA, hcursor]

/-- An ABSORB that does not fill the block appends its bytes (R169). -/
theorem State.Absorbed.absorbEffect_partial {s : State} {m : List Byte} {n : BitVec 4} (h : s.Absorbed m) (din : Lane)
    (hroom : s.cursor.val + n.toNat < 136) : (absorbEffect n din s).Absorbed (m ++ dinBytes n.toNat din) := by
  have hlanes := h.absorbLanes n din
  obtain ⟨ha, -, hcursor⟩ := h
  rw [Machine.absorbEffect_partial hroom]
  refine ⟨ha, ?_, ?_⟩
  · exact hlanes.trans (spongeState_append_partial m (by simpa [hcursor] using hroom)).symm
  · change s.cursor.val + n.toNat = _
    rw [List.length_append, dinBytes_length]
    omega

/-- An ABSORB that fills the block appends its bytes once the engine is done (R163, R169). -/
theorem State.Absorbed.absorbEffect_full {s u : State} {m : List Byte} {n : BitVec 4} {din : Lane} (h : s.Absorbed m)
    (hfull : s.cursor.val + n.toNat = 136) (hran : EngineRan (absorbEffect n din s) 24 u) :
    u.Absorbed (m ++ dinBytes n.toNat din) := by
  have hlanes := h.absorbLanes n din
  obtain ⟨-, -, hcursor⟩ := h
  have hblock : m.length % 136 + (dinBytes n.toNat din).length = 136 := by simpa [hcursor] using hfull
  have heffect := Machine.absorbEffect_full (din := din) hfull
  refine ⟨?_, ?_, ?_⟩
  · rw [hran.phase_done, heffect]; rfl
  · rw [hran.lanes_eq_keccakF, absorbEffect_A, hlanes, spongeState_append_full m hblock]
  · rw [hran.cursor, heffect, List.length_append]
    change 0 = _
    omega

/-- NOP and READ keep what has been absorbed, whether READ's lane is legal or not. -/
theorem State.Absorbed.effectOf {s : State} {m : List Byte} {i : Instr} (h : s.Absorbed m)
    (hi : i = .nop ∨ ∃ lane, i = .read lane) : (effectOf i s).Absorbed m := by
  rcases hi with rfl | ⟨lane, rfl⟩ <;> exact h

/-- The cleared registers are those of the empty message (R161, R169). -/
theorem absorbed_clearRegisters (s : State) : (clearRegisters s).Absorbed [] :=
  ⟨rfl, (xorBlock_nil zeroLanes).symm, rfl⟩

/-- Settles O54: ABSORB at its two ends, and the commands that leave the message or clear it. -/
theorem absorbRefinesAppend : Obligations.AbsorbRefinesAppend := by
  refine ⟨fun s m n din h h1 h8 hfit => ?absorb, fun s m i h hwf hi => ?keeps,
    fun s hb => ⟨_, exec_init hb, absorbed_clearRegisters s⟩, absorbed_clearRegisters State.reset⟩
  case absorb =>
    have ⟨ha, _, _⟩ := h
    refine ⟨_, exec_absorb din ha h1 h8 hfit, absorbEffect_err n din s, h.absorbEffect_partial din, fun hfull hr => ?_⟩
    have heffect := absorbEffect_full (din := din) hfull
    obtain ⟨u, hu, hran⟩ := edges_engine (by rw [heffect]; rfl) (by rw [heffect]; rfl) le_rfl hr
    exact ⟨u, hu, hran.err.trans (absorbEffect_err n din s), h.absorbEffect_full hfull hran⟩
  case keeps =>
    have ⟨ha, _, _⟩ := h
    have hc : checkInstr i s = .none := by
      rcases hi with rfl | ⟨lane, rfl⟩
      · exact checkInstr_nop s
      · rw [checkInstr_read, if_pos (by simpa [Instr.wf] using hwf)]
    refine ⟨_, exec_ok (by simp [ha]) hc, effectOf_err_of_ne_init s ?_, h.effectOf hi⟩
    rcases hi with rfl | ⟨lane, rfl⟩ <;> nofun

/-- FINAL's permutation leaves the state from which R168 takes the output. -/
theorem State.Absorbed.final_lanes {s u : State} {m : List Byte} (h : s.Absorbed m)
    (hran : EngineRan (Machine.effectOf .final s) 24 u) :
    u.A = absorbBlocks (padMessage m) ((padMessage m).length / 136) := by
  obtain ⟨-, hA, hcursor⟩ := h
  have hblock : m.length % 136 + (padTail m.length).length = 136 := by rw [length_padTail]; omega
  have hpad : (Machine.effectOf .final s).A = xorBytes (spongeState m) (m.length % 136) (padTail m.length) :=
    (padLanes_eq_xorBytes hcursor).trans (by rw [hA])
  rw [hran.lanes_eq_keccakF, hpad, padMessage_eq, absorbBlocks_append_full m hblock]

/-- A state in SQUEEZE has Keccak256(m) on `digest`, valid (R172, R173). -/
def HoldsDigest (m : List Byte) (u : State) : Prop :=
  u.digestValid = true ∧ ∀ k, k < 32 → (keccak256 m)[k]? = some (u.digest.extractLsb' (8 * k) 8)

/-- FINAL's permutation ends with the digest on the port: its byte k, the state's and the output's are one (R95, R168). -/
theorem State.Absorbed.final_holdsDigest {s u : State} {m : List Byte} (h : s.Absorbed m)
    (hran : EngineRan (Machine.effectOf .final s) 24 u) : HoldsDigest m u := by
  refine ⟨decide_eq_true hran.phase_done, fun k hk => ?_⟩
  have hbyte := extractLsb'_digest_byte u ⟨k, by omega⟩ hk
  rw [hbyte, h.final_lanes hran]
  exact getElem?_squeezeBytes _ (k := ⟨k, by omega⟩) hk

/-- Settles O55: FINAL starts the engine, and its 24 edges are the last permutation. -/
theorem finalYieldsKeccak256 : Obligations.FinalYieldsKeccak256 := by
  intro s m h
  have ⟨ha, _, _⟩ := h
  refine ⟨_, exec_final ha, rfl, fun hr => ?_⟩
  obtain ⟨u, hu, hran⟩ := edges_engine rfl rfl le_rfl hr
  obtain ⟨hvalid, hdigest⟩ := h.final_holdsDigest hran
  exact ⟨u, hu, hvalid, hran.err, hdigest⟩

end Sys2Proof.Machine
end

section
/-! The canonical chunking (R170). -/

namespace Sys2Proof.Machine

open Sys2Proof

/-- The first c chunks are the first 8c bytes. -/
theorem flatten_chunks_take (m : List Byte) (c : Nat) :
    ((List.range c).map (chunk m)).flatten = m.take (8 * c) := by
  induction c with
  | zero => rfl
  | succ c ih =>
    rw [List.range_succ, List.map_append, List.flatten_append, ih, Nat.mul_succ, List.take_add]
    simp [chunk, slice]

@[simp] theorem length_chunk (m : List Byte) (c : Nat) : (chunk m c).length = min 8 (m.length - 8 * c) := by
  simp [chunk, slice]

theorem length_chunks (m : List Byte) : (chunks m).length = chunkCount m.length := by simp [chunks]

/-- The byte count of a chunk's ABSORB is the chunk's length (R170). -/
theorem toNat_absorbOfChunk_count {bytes : List Byte} (hlen : bytes.length ≤ 8) :
    (BitVec.ofNat 4 bytes.length).toNat = bytes.length := by
  rw [BitVec.toNat_ofNat]
  omega

theorem wf_absorbOfChunk {bytes : List Byte} (h1 : 1 ≤ bytes.length) (h8 : bytes.length ≤ 8) :
    (absorbOfChunk bytes).wf = true := by
  apply wf_absorb <;> rwa [toNat_absorbOfChunk_count h8]

/-- LE64 holds up to 8 bytes, which ABSORB takes from it in their order (R63, R168). -/
theorem dinBytes_le64 {bytes : List Byte} (hlen : bytes.length ≤ 8) : dinBytes bytes.length (le64 bytes) = bytes := by
  refine List.ext_getElem (by simp) fun j _ hj => ?_
  have hbyte := extractLsb'_le64 bytes (show j < 8 by omega)
  simpa [dinBytes, dinByte, hj] using hbyte

/-- Settles O53; a chunk starts at a multiple of 8, as a block ends. -/
theorem canonicalChunkingSplitsTheMessage : Obligations.CanonicalChunkingSplitsTheMessage := by
  intro m
  refine ⟨?concatenation, length_chunks m, fun c hc => ?chunk⟩
  case concatenation =>
    rw [chunks, flatten_chunks_take, List.take_of_length_le (by rw [chunkCount]; omega)]
  case chunk =>
    have hlen := length_chunk m c
    rw [chunkCount] at hc
    have h1 : 1 ≤ (chunk m c).length := by omega
    have h8 : (chunk m c).length ≤ 8 := by omega
    refine ⟨h1, h8, by omega, fun hmore => ?_, wf_absorbOfChunk h1 h8, dinBytes_le64 h8⟩
    rw [chunkCount] at hmore
    omega

end Sys2Proof.Machine
end

section
/-! The hashing run (R174, R243): INIT, the canonical ABSORBs, FINAL, and the engine's edges between them. -/

namespace Sys2Proof.Machine

open Sys2Proof

/-! ## Runs that do not pass through SQUEEZE -/

/-- t is n edges after s, and none of these edges leaves `phase` = SQUEEZE. -/
def RunsOutsideSqueeze (n : Nat) (s t : State) : Prop :=
  edges n s = .next t ∧ ∀ j, 1 ≤ j → j ≤ n → ∀ u, edges j s = .next u → u.phase ≠ .squeeze

theorem RunsOutsideSqueeze.refl (s : State) : RunsOutsideSqueeze 0 s s :=
  ⟨rfl, fun _ h1 h0 => absurd h0 (Nat.not_le_of_lt h1)⟩

theorem RunsOutsideSqueeze.of_step {s t : State} (h : step s = .next t) (ht : t.phase ≠ .squeeze) :
    RunsOutsideSqueeze 1 s t := by
  have hedge : edges 1 s = .next t := edges_snoc (edges_zero s) h
  refine ⟨hedge, fun j h1 h1' u hu => ?_⟩
  obtain rfl : j = 1 := by omega
  cases hu.symm.trans hedge
  exact ht

/-- The edges behind a run are those of the state it ends in. -/
theorem edges_behind {n j : Nat} {s t : State} (h : edges n s = .next t) (hj : n ≤ j) :
    edges j s = edges (j - n) t := by
  rw [← edges_add h, Nat.add_sub_cancel' hj]

theorem RunsOutsideSqueeze.trans {m n : Nat} {s t u : State} (h : RunsOutsideSqueeze m s t)
    (h' : RunsOutsideSqueeze n t u) : RunsOutsideSqueeze (m + n) s u := by
  obtain ⟨hst, hbefore⟩ := h
  obtain ⟨htu, hbehind⟩ := h'
  refine ⟨(edges_add hst).trans htu, fun j h1 hj v hv => ?_⟩
  rcases Nat.lt_or_ge m j with hm | hm
  · rw [edges_behind hst hm.le] at hv
    exact hbehind (j - m) (by omega) (by omega) v hv
  · exact hbefore j h1 hm v hv

/-- A run that ends in SQUEEZE may be longer at its front. -/
theorem RunsOutsideSqueeze.runEndsAfter {m n : Nat} {s t u : State} (h : RunsOutsideSqueeze m s t)
    (h' : RunEndsAfter n t u) : RunEndsAfter (m + n) s u := by
  obtain ⟨hst, hbefore⟩ := h
  obtain ⟨htu, hsq, hbehind⟩ := h'
  refine ⟨(edges_add hst).trans htu, hsq, fun j h1 hj v hv => ?_⟩
  rcases Nat.lt_or_ge m j with hm | hm
  · rw [edges_behind hst hm.le] at hv
    exact hbehind (j - m) (by omega) (by omega) v hv
  · exact hbefore j h1 hm v hv

/-- While the engine runs the phase is BUSY (R134). -/
theorem busy_of_edges {s u : State} {j : Nat} (hb : s.phase = .busy) (h0 : s.round = 0) (hr : s.RstLow 24) (hj : j < 24)
    (hu : edges j s = .next u) : u.phase = .busy := by
  obtain ⟨hrunning, -⟩ := permutationTakesTwentyFourEdges s hb h0 hr
  obtain ⟨v, hv, hvb, -⟩ := hrunning j hj
  cases hu.symm.trans hv
  exact hvb

/-- A block's permutation does not pass through SQUEEZE. -/
theorem runsOutsideSqueeze_permutation {s t : State} (hb : s.phase = .busy) (h0 : s.round = 0) (hr : s.RstLow 24)
    (h : edges 24 s = .next t) (ht : t.phase ≠ .squeeze) : RunsOutsideSqueeze 24 s t := by
  refine ⟨h, fun j _ hj u hu => ?_⟩
  rcases Nat.lt_or_ge j 24 with hlt | hge
  · simp [busy_of_edges hb h0 hr hlt hu]
  · obtain rfl : j = 24 := by omega
    cases hu.symm.trans h
    exact ht

/-- The last permutation enters SQUEEZE at its last edge. -/
theorem runEndsAfter_permutation {s t : State} (hb : s.phase = .busy) (h0 : s.round = 0) (hr : s.RstLow 24)
    (h : edges 24 s = .next t) (ht : t.phase = .squeeze) : RunEndsAfter 24 s t :=
  ⟨h, ht, fun j _ hj u hu => by simp [busy_of_edges hb h0 hr hj hu]⟩

/-! ## The run, command by command -/

/-- The engine's rounds read no move of the host. -/
theorem EngineRan.of_withScript {s u : State} {moves : List HostMove} {k : Nat}
    (h : EngineRan { s with script := moves } k u) : EngineRan s k u :=
  ⟨h.lanes, h.phase, h.round, h.next, h.cursor, h.err, h.dout⟩

/-- A hashing run under way: p has been absorbed with no error, and the host has these moves still to make. -/
structure Hashing (p : List Byte) (moves : List HostMove) (s : State) : Prop where
  absorbed : s.Absorbed p
  err : s.err = .none
  legal : s.legal = true
  script : s.script = moves

theorem Hashing.phase {p : List Byte} {moves : List HostMove} {s : State} (h : Hashing p moves s) :
    s.phase = .absorb := by
  obtain ⟨ha, -, -⟩ := h.absorbed
  exact ha

/-- INIT begins the run: the empty message is absorbed, whatever went before (R161). -/
theorem hashing_of_init {s : State} {moves : List HostMove} (hl : s.legal = true) (hb : s.phase ≠ .busy)
    (hs : s.script = issueInstr .init :: moves) : ∃ t, RunsOutsideSqueeze 1 s t ∧ Hashing [] moves t :=
  ⟨_, .of_step (step_issueInstr hl hb hs rfl (exec_init hb)) nofun, absorbed_clearRegisters s, rfl, rfl, rfl⟩

/-- The edge that accepts a chunk's ABSORB (R170). -/
theorem Hashing.step_absorb {p bytes : List Byte} {moves : List HostMove} {s : State}
    (h : Hashing p (issueInstr (absorbOfChunk bytes) :: moves) s) (h1 : 1 ≤ bytes.length) (h8 : bytes.length ≤ 8)
    (hfit : s.cursor.val + bytes.length ≤ 136) :
    step s = .next { absorbEffect (BitVec.ofNat 4 bytes.length) (le64 bytes) s with script := moves } := by
  have hn := toNat_absorbOfChunk_count h8
  have hexec := exec_absorb (n := BitVec.ofNat 4 bytes.length) (le64 bytes) h.phase (by omega) (by omega) (by omega)
  exact step_issueInstr h.legal (by simp [h.phase]) h.script (wf_absorbOfChunk h1 h8) hexec

/-- A chunk that does not fill its block takes one edge. -/
theorem Hashing.absorb_partial {p bytes : List Byte} {moves : List HostMove} {s : State}
    (h : Hashing p (issueInstr (absorbOfChunk bytes) :: moves) s) (h1 : 1 ≤ bytes.length) (h8 : bytes.length ≤ 8)
    (hroom : s.cursor.val + bytes.length < 136) :
    ∃ t, RunsOutsideSqueeze 1 s t ∧ Hashing (p ++ bytes) moves t := by
  have hstep := h.step_absorb h1 h8 hroom.le
  have hn := toNat_absorbOfChunk_count h8
  have hroom' : s.cursor.val + (BitVec.ofNat 4 bytes.length).toNat < 136 := by omega
  have habs := h.absorbed.absorbEffect_partial (le64 bytes) hroom'
  rw [hn, dinBytes_le64 h8] at habs
  rw [absorbEffect_partial hroom'] at hstep habs
  have hround : s.round = 0 := ((legal_iff s).mp h.legal).resolve_left (by simp [h.phase])
  exact ⟨_, .of_step hstep (by simp [h.phase]), habs, h.err, (legal_iff _).mpr (.inr hround), rfl⟩

/-- A chunk that fills its block takes one edge and the engine's 24, while the host holds its next command. -/
theorem Hashing.absorb_full {p bytes : List Byte} {cmd : CmdWord} {din : Lane} {moves : List HostMove} {s : State}
    (h : Hashing p (issueInstr (absorbOfChunk bytes) :: .issue cmd din :: moves) s) (h1 : 1 ≤ bytes.length)
    (h8 : bytes.length ≤ 8) (hfull : s.cursor.val + bytes.length = 136) :
    ∃ t, RunsOutsideSqueeze (1 + 24) s t ∧ Hashing (p ++ bytes) (.issue cmd din :: moves) t := by
  have hstep := h.step_absorb h1 h8 hfull.le
  have hn := toNat_absorbOfChunk_count h8
  have hfull' : s.cursor.val + (BitVec.ofNat 4 bytes.length).toNat = 136 := by omega
  have heffect := absorbEffect_full (din := le64 bytes) hfull'
  generalize ht : ({ absorbEffect (BitVec.ofNat 4 bytes.length) (le64 bytes) s with
    script := .issue cmd din :: moves } : State) = t at hstep
  have hb : t.phase = .busy := by rw [← ht, heffect]; rfl
  have h0 : t.round = 0 := by rw [← ht, heffect]; rfl
  have hs : t.script = .issue cmd din :: moves := by rw [← ht]
  obtain ⟨u, hu, hran, hscript⟩ := edges_permutation_issued hb h0 hs
  obtain ⟨hl, -⟩ := hran.legal_and_ready
  have hran' : EngineRan (absorbEffect (BitVec.ofNat 4 bytes.length) (le64 bytes) s) 24 u :=
    (ht ▸ hran).of_withScript
  have habs := h.absorbed.absorbEffect_full hfull' hran'
  rw [hn, dinBytes_le64 h8] at habs
  have ⟨ha, _, _⟩ := habs
  have hrun := runsOutsideSqueeze_permutation hb h0 (rstLow_of_held hb h0 hs nofun) hu (by simp [ha])
  exact ⟨u, (RunsOutsideSqueeze.of_step hstep (by simp [hb])).trans hrun, habs,
    hran'.err.trans ((absorbEffect_err _ _ s).trans h.err), hl, hscript.trans hs⟩

/-- A chunk that stays in its block takes one edge, and 24 more where it fills the block (R243). -/
theorem Hashing.absorb {p bytes : List Byte} {cmd : CmdWord} {din : Lane} {moves : List HostMove} {s : State}
    (h : Hashing p (issueInstr (absorbOfChunk bytes) :: .issue cmd din :: moves) s) (h1 : 1 ≤ bytes.length)
    (h8 : bytes.length ≤ 8) (hfit : p.length % 136 + bytes.length ≤ 136) :
    ∃ t, RunsOutsideSqueeze (1 + 24 * ((p.length % 136 + bytes.length) / 136)) s t ∧
      Hashing (p ++ bytes) (.issue cmd din :: moves) t := by
  obtain ⟨-, -, hcursor⟩ := h.absorbed
  rw [← hcursor] at hfit ⊢
  rcases hfit.lt_or_eq with hroom | hfull
  · rw [Nat.div_eq_of_lt hroom]
    exact h.absorb_partial h1 h8 hroom
  · rw [hfull]
    exact h.absorb_full h1 h8 hfull

/-- The host's moves from chunk c on: the other ABSORBs, FINAL and what follows it (R98). -/
def movesFrom (m : List Byte) (rest : List HostMove) (c : Nat) : List HostMove :=
  ((chunks m).drop c).map (fun bytes => issueInstr (absorbOfChunk bytes)) ++ issueInstr .final :: rest

theorem movesFrom_eq_cons (m : List Byte) (rest : List HostMove) {c : Nat} (hc : c < chunkCount m.length) :
    movesFrom m rest c = issueInstr (absorbOfChunk (chunk m c)) :: movesFrom m rest (c + 1) := by
  have hlt : c < (chunks m).length := by rwa [length_chunks]
  rw [movesFrom, List.drop_eq_getElem_cons hlt]
  simp [movesFrom, chunks]

theorem movesFrom_all (m : List Byte) (rest : List HostMove) :
    movesFrom m rest (chunkCount m.length) = issueInstr .final :: rest := by
  rw [movesFrom, List.drop_eq_nil_of_le (by rw [length_chunks])]
  rfl

/-- The host's next move is a command, an ABSORB or FINAL. -/
theorem movesFrom_issues (m : List Byte) (rest : List HostMove) (c : Nat) :
    ∃ cmd din moves, movesFrom m rest c = .issue cmd din :: moves := by
  unfold movesFrom
  cases (chunks m).drop c with
  | nil => exact ⟨_, _, _, rfl⟩
  | cons bytes l => exact ⟨_, _, _, rfl⟩

/-- One chunk more. -/
theorem Hashing.absorb_chunk {m : List Byte} {rest : List HostMove} {s : State} {c : Nat}
    (h : Hashing (m.take (8 * c)) (movesFrom m rest c) s) (hc : c < chunkCount m.length) :
    ∃ t, RunsOutsideSqueeze (1 + 24 * ((8 * c % 136 + (chunk m c).length) / 136)) s t ∧
      Hashing (m.take (8 * (c + 1))) (movesFrom m rest (c + 1)) t := by
  obtain ⟨-, -, hchunk⟩ := canonicalChunkingSplitsTheMessage m
  obtain ⟨h1, h8, hfit, -⟩ := hchunk c hc
  have hlen : (m.take (8 * c)).length = 8 * c := by
    rw [chunkCount] at hc
    rw [List.length_take]
    omega
  have htake : m.take (8 * (c + 1)) = m.take (8 * c) ++ chunk m c := List.take_add
  obtain ⟨cmd, din, moves, hmoves⟩ := movesFrom_issues m rest (c + 1)
  rw [movesFrom_eq_cons m rest hc, hmoves] at h
  have habsorb := h.absorb h1 h8 (by rwa [hlen])
  rwa [hlen, ← htake, ← hmoves] at habsorb

/-- The first c chunks take one edge each, and 24 for each block they fill. -/
theorem Hashing.absorb_chunks {m : List Byte} {rest : List HostMove} {s : State}
    (h : Hashing [] (movesFrom m rest 0) s) {c : Nat} (hc : c ≤ chunkCount m.length) :
    ∃ t, RunsOutsideSqueeze (c + 24 * (min (8 * c) m.length / 136)) s t ∧
      Hashing (m.take (8 * c)) (movesFrom m rest c) t := by
  induction c with
  | zero => exact ⟨s, by simpa using RunsOutsideSqueeze.refl s, h⟩
  | succ c ih =>
    obtain ⟨t, hrun, ht⟩ := ih (by omega)
    obtain ⟨u, hrun', hu⟩ := ht.absorb_chunk (by omega)
    refine ⟨u, ?_, hu⟩
    have hlen := length_chunk m c
    have hedges : c + 1 + 24 * (min (8 * (c + 1)) m.length / 136) =
        c + 24 * (min (8 * c) m.length / 136) + (1 + 24 * ((8 * c % 136 + (chunk m c).length) / 136)) := by
      rw [chunkCount] at hc
      omega
    rw [hedges]
    exact hrun.trans hrun'

/-- FINAL ends the run: its edge, and the 24 of the last permutation, while the host waits (R98, R164). -/
theorem Hashing.final {m : List Byte} {rest : List HostMove} {s : State}
    (h : Hashing m (issueInstr .final :: .waitDone :: rest) s) :
    ∃ t, RunEndsAfter (1 + 24) s t ∧ t.err = .none ∧ HoldsDigest m t := by
  have hstep := step_issueInstr h.legal (by simp [h.phase]) h.script rfl (exec_final h.phase)
  generalize ht : ({ effectOf .final s with script := .waitDone :: rest } : State) = t at hstep
  have hb : t.phase = .busy := by rw [← ht]; rfl
  have h0 : t.round = 0 := by rw [← ht]; rfl
  have hs : t.script = .waitDone :: rest := by rw [← ht]
  have hr : t.RstLow 24 := rstLow_of_held hb h0 hs nofun
  obtain ⟨u, hu, hran⟩ := edges_engine hb h0 le_rfl hr
  have hran' : EngineRan (effectOf .final s) 24 u := (ht ▸ hran).of_withScript
  have hend := runEndsAfter_permutation hb h0 hr hu hran'.phase_done
  exact ⟨u, (RunsOutsideSqueeze.of_step hstep (by simp [hb])).runEndsAfter hend, hran'.err.trans h.err,
    h.absorbed.final_holdsDigest hran'⟩

/-- Settles O56: INIT, the chunks and FINAL in sequence; their edges add up to T(L). -/
theorem hashingRunYieldsKeccak256 : Obligations.HashingRunYieldsKeccak256 := by
  intro s m rest hb hl hs
  have hscript : s.script = issueInstr .init :: movesFrom m (.waitDone :: (squeezeReads ++ rest)) 0 := by
    rw [hs]
    simp [hashScript, absorbMessage, movesFrom]
  obtain ⟨t, hinit, ht⟩ := hashing_of_init hl hb hscript
  obtain ⟨u, habsorb, hu⟩ := ht.absorb_chunks le_rfl
  have hall : m.length ≤ 8 * chunkCount m.length := by rw [chunkCount]; omega
  rw [List.take_of_length_le hall, movesFrom_all] at hu
  obtain ⟨v, hfinal, herr, hvalid, hdigest⟩ := hu.final
  refine ⟨v, ?_, herr, hvalid, hdigest⟩
  have hedges : edgesToSqueeze m.length =
      1 + (chunkCount m.length + 24 * (min (8 * chunkCount m.length) m.length / 136)) + (1 + 24) := by
    rw [edgesToSqueeze, permutationCount, Nat.min_eq_right hall]
    omega
  rw [hedges]
  exact (hinit.trans habsorb).runEndsAfter hfinal

end Sys2Proof.Machine
end
